-- ==== Sys2Proof/Word.lean ====
section
/-! DEFINITION. The words of the machine and the small closed types that name an encoded field: bytes, 128-bit lanes,
512-bit vectors, vector lengths, operating modes, prefixes, the ModRM/SIB operand field, and the decoder's named reasons
for reading no instruction (spec/00_scope.md R6, R8, R12, R14; spec/30_encoding.md R83, R84, R86 to R90, R120). -/

namespace Sys2Proof

abbrev Byte := BitVec 8
abbrev Word := BitVec 16
abbrev Lane := BitVec 128
abbrev Vec := BitVec 512
abbrev Addr := BitVec 64

/-- A vector length: the operated length `VL` of an encoding (R14), and the range of `MAXVL` (R6). -/
inductive VecLen where
  | v128 | v256 | v512
  deriving DecidableEq, Repr, Inhabited

def VecLen.bits : VecLen → Nat
  | .v128 => 128 | .v256 => 256 | .v512 => 512

/-- The width of a memory source of that length (R53). -/
def VecLen.bytes : VecLen → Nat
  | .v128 => 16 | .v256 => 32 | .v512 => 64

/-- `KL`, the number of 16-bit words and of mask bits (R14). -/
def VecLen.words : VecLen → Nat
  | .v128 => 8 | .v256 => 16 | .v512 => 32

/-- `MODE` (R8): 64-bit mode, or protected/compatibility mode with a 32-bit code segment. -/
inductive Mode where
  | m64 | m32
  deriving DecidableEq, Repr, Inhabited

/-- The six encodings of R2. -/
inductive Form where
  | leg | vex128 | vex256 | evex128 | evex256 | evex512
  deriving DecidableEq, Repr, Inhabited

def Form.vl : Form → VecLen
  | .leg | .vex128 | .evex128 => .v128
  | .vex256 | .evex256 => .v256
  | .evex512 => .v512

def Form.isEvex : Form → Bool
  | .leg | .vex128 | .vex256 => false
  | .evex128 | .evex256 | .evex512 => true

/-- The segment registers (R31). -/
inductive SegName where
  | es | cs | ss | ds | fs | gs
  deriving DecidableEq, Repr, Inhabited

/-- The optional prefixes every encoding admits (R120): one segment override and one `67h`. -/
structure Prefixes where
  seg : Option SegName
  a67 : Bool
  deriving DecidableEq, Repr, Inhabited

/-- A REX byte `0100WRXB` (R84). -/
structure Rex where
  w : Bool
  r : Bool
  x : Bool
  b : Bool
  deriving DecidableEq, Repr, Inhabited

/-- The logical (un-complemented) register-extension bits of an encoding; a bit the encoding lacks is false (R100 to R103). -/
structure Ext where
  rHi : Bool
  r : Bool
  x : Bool
  b : Bool
  deriving DecidableEq, Repr, Inhabited

/-- A displacement that `mod` selects: none (`mod = 00b`), one byte (`01b`), four bytes (`10b`) (R88). -/
inductive Disp where
  | none
  | d8 (v : BitVec 8)
  | d32 (v : BitVec 32)
  deriving DecidableEq, Repr, Inhabited

/-- A memory form of `ModRM:r/m` (`mod ≠ 11b`, R88 to R90). Register fields are the three encoded bits. -/
inductive MemField where
  /-- A base register and no SIB byte. -/
  | base (n : BitVec 3) (d : Disp)
  /-- `mod = 00b, rm = 101b`: a displacement alone, or relative to the next instruction in `M64`. -/
  | disp32 (d : BitVec 32)
  /-- A SIB byte with a base register. -/
  | sib (ss : BitVec 2) (index : BitVec 3) (base : BitVec 3) (d : Disp)
  /-- A SIB byte with `base = 101b` under `mod = 00b`: no base, a 4-byte displacement. -/
  | sibDisp32 (ss : BitVec 2) (index : BitVec 3) (d : BitVec 32)
  deriving DecidableEq, Repr, Inhabited

/-- `ModRM:r/m`: a register source or a memory source (R86, R87). -/
inductive RmField where
  | reg (n : BitVec 3)
  | mem (f : MemField)
  deriving DecidableEq, Repr, Inhabited

/-- Why the decoder reads no instruction of this model (R120, R121): each is a sequence outside the admitted set. -/
inductive RejectReason where
  /-- Another instruction of the instruction set (R5, R85). -/
  | otherInstruction
  /-- A second segment override, `67h` or `F3h` (R120, R121). -/
  | repeatedPrefix
  /-- A `66h` or `F2h` prefix, wherever it stands (R121, conflict C13). -/
  | prefix66OrF2
  /-- `67h` in `M32`: 16-bit addressing (R91). -/
  | addressing16
  /-- A register-extension bit used in `M32` (R95, R99). -/
  | extensionBitIn32
  /-- `z = 1` with `aaa = 000b` (R98, R120, conflict C13). -/
  | zeroingWithoutMask
  deriving DecidableEq, Repr, Inhabited

end Sys2Proof
end

