-- ==== Sys2Proof/Syntax.lean ====
section
/-! DEFINITION. The instruction syntax: one constructor for each row of spec/opcode_table.json (R122), its operands the
fields of the row's encoding with nothing dropped but the order of the legacy prefixes (assumption 25). -/

namespace Sys2Proof

/-- The eight rows of the opcode table. Extension bits are logical; `w` is the ignored `W` bit (R81, "WIG"). -/
inductive Instr where
  /-- `PSHUFHW xmm1, xmm2/m128, imm8`, format LEG (R82, R150). -/
  | pshufhw (p : Prefixes) (rex : Option Rex) (reg : BitVec 3) (rm : RmField) (imm : Byte)
  /-- `VPSHUFHW xmm1, xmm2/m128, imm8`, format VEX2 (R92, R151). -/
  | vpshufhw128Vex2 (p : Prefixes) (r : Bool) (reg : BitVec 3) (rm : RmField) (imm : Byte)
  /-- `VPSHUFHW xmm1, xmm2/m128, imm8`, format VEX3 (R93, R151). -/
  | vpshufhw128Vex3 (p : Prefixes) (r x b w : Bool) (reg : BitVec 3) (rm : RmField) (imm : Byte)
  /-- `VPSHUFHW ymm1, ymm2/m256, imm8`, format VEX2 (R92, R152). -/
  | vpshufhw256Vex2 (p : Prefixes) (r : Bool) (reg : BitVec 3) (rm : RmField) (imm : Byte)
  /-- `VPSHUFHW ymm1, ymm2/m256, imm8`, format VEX3 (R93, R152). -/
  | vpshufhw256Vex3 (p : Prefixes) (r x b w : Bool) (reg : BitVec 3) (rm : RmField) (imm : Byte)
  /-- `VPSHUFHW xmm1 {k1}{z}, xmm2/m128, imm8`, format EVEX (R96, R153). -/
  | vpshufhw128Evex (p : Prefixes) (e : Ext) (w z : Bool) (aaa : BitVec 3) (reg : BitVec 3) (rm : RmField) (imm : Byte)
  /-- `VPSHUFHW ymm1 {k1}{z}, ymm2/m256, imm8`, format EVEX (R96, R154). -/
  | vpshufhw256Evex (p : Prefixes) (e : Ext) (w z : Bool) (aaa : BitVec 3) (reg : BitVec 3) (rm : RmField) (imm : Byte)
  /-- `VPSHUFHW zmm1 {k1}{z}, zmm2/m512, imm8`, format EVEX (R96, R155). -/
  | vpshufhw512Evex (p : Prefixes) (e : Ext) (w z : Bool) (aaa : BitVec 3) (reg : BitVec 3) (rm : RmField) (imm : Byte)
  deriving DecidableEq, Repr, Inhabited

/-- Which of the six encodings an instruction is (R2). -/
def Instr.form : Instr → Form
  | .pshufhw .. => .leg
  | .vpshufhw128Vex2 .. | .vpshufhw128Vex3 .. => .vex128
  | .vpshufhw256Vex2 .. | .vpshufhw256Vex3 .. => .vex256
  | .vpshufhw128Evex .. => .evex128
  | .vpshufhw256Evex .. => .evex256
  | .vpshufhw512Evex .. => .evex512

/-- The fields every row has. -/
def Instr.prefixes : Instr → Prefixes
  | .pshufhw p .. | .vpshufhw128Vex2 p .. | .vpshufhw128Vex3 p .. | .vpshufhw256Vex2 p .. | .vpshufhw256Vex3 p ..
  | .vpshufhw128Evex p .. | .vpshufhw256Evex p .. | .vpshufhw512Evex p .. => p

def Instr.reg : Instr → BitVec 3
  | .pshufhw _ _ reg _ _ | .vpshufhw128Vex2 _ _ reg _ _ | .vpshufhw128Vex3 _ _ _ _ _ reg _ _
  | .vpshufhw256Vex2 _ _ reg _ _ | .vpshufhw256Vex3 _ _ _ _ _ reg _ _ | .vpshufhw128Evex _ _ _ _ _ reg _ _
  | .vpshufhw256Evex _ _ _ _ _ reg _ _ | .vpshufhw512Evex _ _ _ _ _ reg _ _ => reg

def Instr.rm : Instr → RmField
  | .pshufhw _ _ _ rm _ | .vpshufhw128Vex2 _ _ _ rm _ | .vpshufhw128Vex3 _ _ _ _ _ _ rm _
  | .vpshufhw256Vex2 _ _ _ rm _ | .vpshufhw256Vex3 _ _ _ _ _ _ rm _ | .vpshufhw128Evex _ _ _ _ _ _ rm _
  | .vpshufhw256Evex _ _ _ _ _ _ rm _ | .vpshufhw512Evex _ _ _ _ _ _ rm _ => rm

def Instr.imm : Instr → Byte
  | .pshufhw _ _ _ _ imm | .vpshufhw128Vex2 _ _ _ _ imm | .vpshufhw128Vex3 _ _ _ _ _ _ _ imm
  | .vpshufhw256Vex2 _ _ _ _ imm | .vpshufhw256Vex3 _ _ _ _ _ _ _ imm | .vpshufhw128Evex _ _ _ _ _ _ _ imm
  | .vpshufhw256Evex _ _ _ _ _ _ _ imm | .vpshufhw512Evex _ _ _ _ _ _ _ imm => imm

/-- The logical extension bits the format supplies; those it lacks are false (R84, R92, R93, R96). -/
def Instr.ext : Instr → Ext
  | .pshufhw _ rex _ _ _ => match rex with
    | none => ⟨false, false, false, false⟩
    | some q => ⟨false, q.r, q.x, q.b⟩
  | .vpshufhw128Vex2 _ r _ _ _ | .vpshufhw256Vex2 _ r _ _ _ => ⟨false, r, false, false⟩
  | .vpshufhw128Vex3 _ r x b _ _ _ _ | .vpshufhw256Vex3 _ r x b _ _ _ _ => ⟨false, r, x, b⟩
  | .vpshufhw128Evex _ e .. | .vpshufhw256Evex _ e .. | .vpshufhw512Evex _ e .. => e

/-- The write mask `aaa` and the zeroing flag `z` of an EVEX row; `none` for the others (R98). -/
def Instr.mask : Instr → Option (BitVec 3 × Bool)
  | .pshufhw .. | .vpshufhw128Vex2 .. | .vpshufhw128Vex3 .. | .vpshufhw256Vex2 .. | .vpshufhw256Vex3 .. => none
  | .vpshufhw128Evex _ _ _ z aaa .. | .vpshufhw256Evex _ _ _ z aaa .. | .vpshufhw512Evex _ _ _ z aaa .. => some (aaa, z)

end Sys2Proof
end

