-- ==== Sys2Proof/WellFormed.lean ====
section
/-! DEFINITION. Which terms of the syntax the encoding admits (spec/30_encoding.md R88, R89, R120): the admitted set, as a
Bool, for the mode the instruction is fetched in. -/

namespace Sys2Proof

/-- Without a displacement byte the three bits `101b` name no base register (R88, R89). -/
def Disp.baseOk (d : Disp) (base : BitVec 3) : Bool :=
  match d with
  | .none => base != 5#3
  | .d8 _ => true
  | .d32 _ => true

/-- `rm = 100b` announces a SIB byte, so it names no base register by itself (R88). -/
def MemField.wf : MemField → Bool
  | .base n d => n != 4#3 && d.baseOk n
  | .disp32 _ => true
  | .sib _ _ b d => d.baseOk b
  | .sibDisp32 _ _ _ => true

def RmField.wf : RmField → Bool
  | .reg _ => true
  | .mem f => f.wf

/-- A REX byte exists in `M64` only (R84). -/
def Instr.rexOk (m : Mode) : Instr → Bool
  | .pshufhw _ rex _ _ _ => m == .m64 || rex.isNone
  | .vpshufhw128Vex2 .. | .vpshufhw128Vex3 .. | .vpshufhw256Vex2 .. | .vpshufhw256Vex3 ..
  | .vpshufhw128Evex .. | .vpshufhw256Evex .. | .vpshufhw512Evex .. => true

/-- In `M32` no extension bit may be used (R95, R99, R120). -/
def Instr.extOk (m : Mode) (i : Instr) : Bool :=
  m == .m64 || i.ext == ⟨false, false, false, false⟩

/-- In `M32` there is no `67h` prefix (R91, R120). -/
def Instr.addressOk (m : Mode) (i : Instr) : Bool :=
  m == .m64 || !i.prefixes.a67

/-- Zeroing needs a mask (R98, R120). -/
def Instr.maskOk (i : Instr) : Bool :=
  match i.mask with
  | none => true
  | some (aaa, z) => !z || aaa != 0#3

/-- The admitted set of R120, as terms. -/
def Instr.wf (m : Mode) (i : Instr) : Bool :=
  i.rm.wf && i.rexOk m && i.extOk m && i.addressOk m && i.maskOk

end Sys2Proof
end

