-- ==== Sys2Proof/Decode.lean ====
section
/-! DEFINITION. The decoder of spec/30_encoding.md R121, total on any bytes, and after it the encoder, written from the
same tables (R82 to R99), with the length of R112. A `#UD` is answered only when the whole instruction has been read, since
a fault of the fetch comes before it (spec/60_exceptions.md R199). -/

namespace Sys2Proof

/-! ### Fields of a byte -/

/-- The opcode byte of every row (R122). -/
def opcode70 : Byte := 0x70

/-- Bits 7:6 of a ModRM or SIB byte. -/
def fieldHi2 (b : Byte) : BitVec 2 := b.extractLsb' 6 2
/-- Bits 5:3 of a ModRM or SIB byte. -/
def fieldMid3 (b : Byte) : BitVec 3 := b.extractLsb' 3 3
/-- Bits 2:0 of a ModRM or SIB byte. -/
def fieldLow3 (b : Byte) : BitVec 3 := b.extractLsb' 0 3

/-- A 4-byte displacement is little-endian (R88). -/
def disp32OfBytes (b0 b1 b2 b3 : Byte) : BitVec 32 := b3 ++ b2 ++ b1 ++ b0

/-! ### ModRM, SIB, displacement, immediate -/

/-- Four displacement bytes; `none` when the bytes run out (so for every reader below). -/
def takeDisp32 : List Byte → Option (BitVec 32 × List Byte)
  | b0 :: b1 :: b2 :: b3 :: bs => some (disp32OfBytes b0 b1 b2 b3, bs)
  | _ => none

/-- The displacement `mod` announces, for `mod ≠ 11b` (R88). -/
def takeDisp (mod : BitVec 2) (bs : List Byte) : Option (Disp × List Byte) :=
  if mod = 0#2 then some (.none, bs)
  else if mod = 1#2 then
    match bs with
    | [] => none
    | d :: bs => some (.d8 d, bs)
  else (takeDisp32 bs).map fun (d, bs) => (.d32 d, bs)

/-- The SIB byte and its displacement (R89). -/
def takeSib (mod : BitVec 2) : List Byte → Option (MemField × List Byte)
  | [] => none
  | b :: bs =>
    if mod = 0#2 ∧ fieldLow3 b = 5#3 then
      (takeDisp32 bs).map fun (d, bs) => (.sibDisp32 (fieldHi2 b) (fieldMid3 b) d, bs)
    else
      (takeDisp mod bs).map fun (d, bs) => (.sib (fieldHi2 b) (fieldMid3 b) (fieldLow3 b) d, bs)

/-- The memory form of `mod ≠ 11b` and `rm` (R88 to R90). -/
def takeMem (mod : BitVec 2) (rm : BitVec 3) (bs : List Byte) : Option (MemField × List Byte) :=
  if rm = 4#3 then takeSib mod bs
  else if mod = 0#2 ∧ rm = 5#3 then (takeDisp32 bs).map fun (d, bs) => (.disp32 d, bs)
  else (takeDisp mod bs).map fun (d, bs) => (.base rm d, bs)

/-- `ModRM` with all that it announces: the `reg` field and the source (R86 to R89). -/
def takeModRM : List Byte → Option (BitVec 3 × RmField × List Byte)
  | [] => none
  | b :: bs =>
    if fieldHi2 b = 3#2 then some (fieldMid3 b, .reg (fieldLow3 b), bs)
    else (takeMem (fieldHi2 b) (fieldLow3 b) bs).map fun (f, bs) => (fieldMid3 b, .mem f, bs)

/-- What follows the opcode byte: ModRM and what it announces, then `imm8` (R80, R111). -/
def takeTail (bs : List Byte) : Option (BitVec 3 × RmField × Byte × List Byte) :=
  match takeModRM bs with
  | none => none
  | some (reg, rm, bs) =>
    match bs with
    | [] => none
    | imm :: bs => some (reg, rm, imm, bs)

/-! ### The decoder -/

/-- What the bytes at `rip` are: an instruction and the bytes after it; an encoding that raises `#UD`; a sequence outside
the admitted set; or too few bytes to tell. -/
inductive DecodeResult where
  | instr (i : Instr) (rest : List Byte)
  | ud
  | reject (r : RejectReason)
  | short
  deriving DecidableEq, Repr, Inhabited

/-- What a byte is in prefix position (R83, R121). -/
inductive PrefixKind where
  | segment (n : SegName)
  | address
  | f3
  | lock
  | other
  | none
  deriving DecidableEq, Repr

def prefixKind (b : Byte) : PrefixKind :=
  if b = 0x26 then .segment .es
  else if b = 0x2E then .segment .cs
  else if b = 0x36 then .segment .ss
  else if b = 0x3E then .segment .ds
  else if b = 0x64 then .segment .fs
  else if b = 0x65 then .segment .gs
  else if b = 0x67 then .address
  else if b = 0xF3 then .f3
  else if b = 0xF0 then .lock
  else if b = 0x66 then .other
  else if b = 0xF2 then .other
  else .none

/-- The prefix bytes read so far. -/
structure Seen where
  seg : Option SegName
  a67 : Bool
  f3 : Bool
  lock : Bool
  deriving DecidableEq, Repr

def Seen.prefixes (q : Seen) : Prefixes := ⟨q.seg, q.a67⟩

inductive PrefixScan where
  | done (q : Seen) (rest : List Byte)
  | reject (r : RejectReason)
  | short
  deriving DecidableEq, Repr

/-- The prefix loop of R121. A LOCK byte is remembered: it raises `#UD` provided one of the six forms follows. -/
def scanPrefixes (q : Seen) : List Byte → PrefixScan
  | [] => .short
  | b :: bs =>
    match prefixKind b with
    | .segment n => if q.seg.isSome then .reject .repeatedPrefix else scanPrefixes { q with seg := some n } bs
    | .address => if q.a67 then .reject .repeatedPrefix else scanPrefixes { q with a67 := true } bs
    | .f3 => if q.f3 then .reject .repeatedPrefix else scanPrefixes { q with f3 := true } bs
    | .lock => scanPrefixes { q with lock := true } bs
    | .other => .reject .prefix66OrF2
    | .none => .done q (b :: bs)

/-- The end of every format, after its opcode byte. `bad`: a condition of R115 or R192 that raises `#UD` holds. `rej`: the
encoding is outside the admitted set for that reason. In `M32` a `67h` prefix changes the ModRM table (R91), so nothing
after it is read. A refusal comes before the feature and enable tests, and before the bytes that follow (assumption 39). -/
def finishDecode (m : Mode) (q : Seen) (bad : Bool) (rej : Option RejectReason)
    (build : BitVec 3 → RmField → Byte → Instr) (bs : List Byte) : DecodeResult :=
  if bad then
    if m = .m32 ∧ q.a67 then .ud
    else match takeTail bs with
      | none => .short
      | some _ => .ud
  else match rej with
    | some r => .reject r
    | none =>
      if m = .m32 ∧ q.a67 then .reject .addressing16
      else match takeTail bs with
        | none => .short
        | some (reg, rm, imm, bs) => .instr (build reg rm imm) bs

/-- Format LEG after the escape byte (R82). -/
def decodeLeg (m : Mode) (q : Seen) (rex : Option Rex) : List Byte → DecodeResult
  | [] => .short
  | op :: bs =>
    if !q.f3 || op != opcode70 then .reject .otherInstruction
    else finishDecode m q q.lock none (fun reg rm imm => .pshufhw q.prefixes rex reg rm imm) bs

/-- Format VEX2 after `C5h` (R92, R94, R95). `rexSeen`: a REX byte stands before it. -/
def decodeVex2 (m : Mode) (q : Seen) (rexSeen : Bool) : List Byte → DecodeResult
  | [] => .short
  | v :: bs =>
    if m = .m32 ∧ fieldHi2 v ≠ 3#2 then .reject .otherInstruction
    else match bs with
      | [] => .short
      | op :: bs =>
        if v.extractLsb' 0 2 != 2#2 || op != opcode70 then
          if q.f3 || rexSeen then .ud else .reject .otherInstruction
        else
          let bad := q.lock || q.f3 || rexSeen || v.extractLsb' 3 4 != 15#4
          let r := !v.getLsbD 7
          finishDecode m q bad none
            (fun reg rm imm =>
              if v.getLsbD 2 then .vpshufhw256Vex2 q.prefixes r reg rm imm
              else .vpshufhw128Vex2 q.prefixes r reg rm imm) bs

/-- Format VEX3 after `C4h` (R93 to R95). -/
def decodeVex3 (m : Mode) (q : Seen) (rexSeen : Bool) : List Byte → DecodeResult
  | [] => .short
  | v1 :: bs =>
    if m = .m32 ∧ fieldHi2 v1 ≠ 3#2 then .reject .otherInstruction
    else match bs with
      | v2 :: op :: bs =>
        if v1.extractLsb' 0 5 != 1#5 || v2.extractLsb' 0 2 != 2#2 || op != opcode70 then
          if q.f3 || rexSeen then .ud else .reject .otherInstruction
        else
          let bad := q.lock || q.f3 || rexSeen || v2.extractLsb' 3 4 != 15#4
          let r := !v1.getLsbD 7
          let x := !v1.getLsbD 6
          let b := !v1.getLsbD 5
          let rej := if m = .m32 ∧ (r || x || b) then some RejectReason.extensionBitIn32 else none
          finishDecode m q bad rej
            (fun reg rm imm =>
              if v2.getLsbD 2 then .vpshufhw256Vex3 q.prefixes r x b (v2.getLsbD 7) reg rm imm
              else .vpshufhw128Vex3 q.prefixes r x b (v2.getLsbD 7) reg rm imm) bs
      | _ => .short

/-- The EVEX fields of this instruction that raise `#UD` unless they have their one value (R97, R181, R183): `P0[3:2]`,
`vvvv`, `P1[2]`, `L'L = 11b`, `b`, stored `V'`. -/
def evexFieldsBad (p0 p1 p2 : Byte) : Bool :=
  p0.extractLsb' 2 2 != 0#2 || p1.extractLsb' 3 4 != 15#4 || !p1.getLsbD 2 ||
  p2.extractLsb' 5 2 == 3#2 || p2.getLsbD 4 || !p2.getLsbD 3

/-- Format EVEX after `62h` (R96 to R99). -/
def decodeEvex (m : Mode) (q : Seen) (rexSeen : Bool) : List Byte → DecodeResult
  | [] => .short
  | p0 :: bs =>
    if m = .m32 ∧ fieldHi2 p0 ≠ 3#2 then .reject .otherInstruction
    else match bs with
      | p1 :: p2 :: op :: bs =>
        if p0.extractLsb' 0 2 != 1#2 || p1.extractLsb' 0 2 != 2#2 || op != opcode70 then
          if q.f3 || rexSeen then .ud else .reject .otherInstruction
        else
          let bad := q.lock || q.f3 || rexSeen || evexFieldsBad p0 p1 p2
          let e : Ext := ⟨!p0.getLsbD 4, !p0.getLsbD 7, !p0.getLsbD 6, !p0.getLsbD 5⟩
          let w := p1.getLsbD 7
          let z := p2.getLsbD 7
          let aaa := p2.extractLsb' 0 3
          let rej :=
            if z && aaa == 0#3 then some RejectReason.zeroingWithoutMask
            else if m = .m32 ∧ (e.rHi || e.r || e.x || e.b) then some RejectReason.extensionBitIn32
            else none
          finishDecode m q bad rej
            (fun reg rm imm =>
              if p2.extractLsb' 5 2 = 0#2 then .vpshufhw128Evex q.prefixes e w z aaa reg rm imm
              else if p2.extractLsb' 5 2 = 1#2 then .vpshufhw256Evex q.prefixes e w z aaa reg rm imm
              else .vpshufhw512Evex q.prefixes e w z aaa reg rm imm) bs
      | _ => .short

/-- The format from the byte that ends the prefixes (R112, R121). -/
def decodeFormat (m : Mode) (q : Seen) (rex : Option Rex) : List Byte → DecodeResult
  | [] => .short
  | b :: bs =>
    if b = 0x0F then decodeLeg m q rex bs
    else if b = 0xC5 then decodeVex2 m q rex.isSome bs
    else if b = 0xC4 then decodeVex3 m q rex.isSome bs
    else if b = 0x62 then decodeEvex m q rex.isSome bs
    else .reject .otherInstruction

/-- The bits of a REX byte (R84). -/
def rexOfByte (b : Byte) : Rex := ⟨b.getLsbD 3, b.getLsbD 2, b.getLsbD 1, b.getLsbD 0⟩

/-- After the prefixes: in `M64` an optional REX byte, then the format. -/
def decodeAfterPrefixes (m : Mode) (q : Seen) : List Byte → DecodeResult
  | [] => .short
  | b :: bs =>
    if m = .m64 ∧ b.extractLsb' 4 4 = 4#4 then decodeFormat m q (some (rexOfByte b)) bs
    else decodeFormat m q none (b :: bs)

/-- The decoding procedure of R121. -/
def decode (m : Mode) (bs : List Byte) : DecodeResult :=
  match scanPrefixes ⟨none, false, false, false⟩ bs with
  | .short => .short
  | .reject r => .reject r
  | .done q rest => decodeAfterPrefixes m q rest

/-! ### The encoder -/

def segByte : SegName → Byte
  | .es => 0x26 | .cs => 0x2E | .ss => 0x36 | .ds => 0x3E | .fs => 0x64 | .gs => 0x65

/-- The optional prefixes, in this encoder's order (any order decodes alike; assumption 25). -/
def encodePrefixes (p : Prefixes) : List Byte :=
  (match p.seg with
    | none => []
    | some n => [segByte n]) ++
  (if p.a67 then [0x67] else [])

def bit1 (b : Bool) : BitVec 1 := BitVec.ofBool b

/-- `0100WRXB` (R84). -/
def rexByte (q : Rex) : Byte := 0b0100#4 ++ bit1 q.w ++ bit1 q.r ++ bit1 q.x ++ bit1 q.b

/-- A ModRM or SIB byte from its three fields (R86, R89). -/
def fieldsByte (hi : BitVec 2) (mid low : BitVec 3) : Byte := hi ++ mid ++ low

def encodeDisp32 (d : BitVec 32) : List Byte :=
  [d.extractLsb' 0 8, d.extractLsb' 8 8, d.extractLsb' 16 8, d.extractLsb' 24 8]

def Disp.mod : Disp → BitVec 2
  | .none => 0#2 | .d8 _ => 1#2 | .d32 _ => 2#2

def Disp.encode : Disp → List Byte
  | .none => [] | .d8 d => [d] | .d32 d => encodeDisp32 d

/-- ModRM, SIB and displacement (R86 to R90). -/
def encodeModRM (reg : BitVec 3) : RmField → List Byte
  | .reg n => [fieldsByte 3#2 reg n]
  | .mem (.base n d) => fieldsByte d.mod reg n :: d.encode
  | .mem (.disp32 d) => fieldsByte 0#2 reg 5#3 :: encodeDisp32 d
  | .mem (.sib ss index base d) => fieldsByte d.mod reg 4#3 :: fieldsByte ss index base :: d.encode
  | .mem (.sibDisp32 ss index d) => fieldsByte 0#2 reg 4#3 :: fieldsByte ss index 5#3 :: encodeDisp32 d

def encodeTail (reg : BitVec 3) (rm : RmField) (imm : Byte) : List Byte :=
  opcode70 :: (encodeModRM reg rm ++ [imm])

/-- The last payload byte of a VEX prefix: `top`, `vvvv = 1111b`, `L`, `pp = 10b` (R92, R93). -/
def vexByte (top l : Bool) : Byte := bit1 top ++ 0b1111#4 ++ bit1 l ++ 0b10#2

/-- The first payload byte of a three-byte VEX prefix: `R̄ X̄ B̄ 00001` (R93). -/
def vex3Byte (r x b : Bool) : Byte := bit1 (!r) ++ bit1 (!x) ++ bit1 (!b) ++ 0b00001#5

/-- `R̄ X̄ B̄ R̄' 00 01` (R96). -/
def evexP0 (e : Ext) : Byte := bit1 (!e.r) ++ bit1 (!e.x) ++ bit1 (!e.b) ++ bit1 (!e.rHi) ++ 0b0001#4

/-- `W 1111 1 10` (R96). -/
def evexP1 (w : Bool) : Byte := bit1 w ++ 0b1111110#7

/-- `z L'L 0 1 aaa` (R96). -/
def evexP2 (z : Bool) (ll : BitVec 2) (aaa : BitVec 3) : Byte := bit1 z ++ ll ++ 0b01#2 ++ aaa

def evexBody (ll : BitVec 2) (e : Ext) (w z : Bool) (aaa reg : BitVec 3) (rm : RmField) (imm : Byte) : List Byte :=
  0x62 :: evexP0 e :: evexP1 w :: evexP2 z ll aaa :: encodeTail reg rm imm

/-- The mandatory prefix of format LEG, which stands among the optional prefixes in any order (R82, R120). -/
def Instr.mandatory (i : Instr) : List Byte := if i.form = .leg then [0xF3] else []

/-- The bytes from the REX byte, or the first of `0F`, `C5`, `C4`, `62`, on: all but the prefixes whose order is free (R120). -/
def encodeBody : Instr → List Byte
  | .pshufhw _ rex reg rm imm =>
    (match rex with
      | none => []
      | some q => [rexByte q]) ++ 0x0F :: encodeTail reg rm imm
  | .vpshufhw128Vex2 _ r reg rm imm => 0xC5 :: vexByte (!r) false :: encodeTail reg rm imm
  | .vpshufhw256Vex2 _ r reg rm imm => 0xC5 :: vexByte (!r) true :: encodeTail reg rm imm
  | .vpshufhw128Vex3 _ r x b w reg rm imm => 0xC4 :: vex3Byte r x b :: vexByte w false :: encodeTail reg rm imm
  | .vpshufhw256Vex3 _ r x b w reg rm imm => 0xC4 :: vex3Byte r x b :: vexByte w true :: encodeTail reg rm imm
  | .vpshufhw128Evex _ e w z aaa reg rm imm => evexBody 0#2 e w z aaa reg rm imm
  | .vpshufhw256Evex _ e w z aaa reg rm imm => evexBody 1#2 e w z aaa reg rm imm
  | .vpshufhw512Evex _ e w z aaa reg rm imm => evexBody 2#2 e w z aaa reg rm imm

/-- The bytes of an instruction, at ascending addresses (R122). -/
def encode (i : Instr) : List Byte := encodePrefixes i.prefixes ++ i.mandatory ++ encodeBody i

/-! ### Length -/

def Disp.length : Disp → Nat
  | .none => 0 | .d8 _ => 1 | .d32 _ => 4

/-- ModRM, SIB and displacement bytes. -/
def RmField.length : RmField → Nat
  | .reg _ => 1
  | .mem (.base _ d) => 1 + d.length
  | .mem (.disp32 _) => 5
  | .mem (.sib _ _ _ d) => 2 + d.length
  | .mem (.sibDisp32 _ _ _) => 6

def Prefixes.length (p : Prefixes) : Nat :=
  (if p.seg.isSome then 1 else 0) + (if p.a67 then 1 else 0)

/-- The bytes between the optional prefixes and ModRM: the mandatory prefix, REX, VEX or EVEX, and `0F 70` or `70` (R112). -/
def Instr.headLength : Instr → Nat
  | .pshufhw _ rex _ _ _ => if rex.isSome then 4 else 3
  | .vpshufhw128Vex2 .. | .vpshufhw256Vex2 .. => 3
  | .vpshufhw128Vex3 .. | .vpshufhw256Vex3 .. => 4
  | .vpshufhw128Evex .. | .vpshufhw256Evex .. | .vpshufhw512Evex .. => 5

/-- `len` (R112). -/
def Instr.length (i : Instr) : Nat :=
  i.prefixes.length + i.headLength + i.rm.length + 1

/-! ### Words numbered as the opcode table numbers them -/

/-- The longest instruction (R80, R113). -/
def maxLength : Nat := 15

/-- The first `n` bytes of a number whose bits 7:0 are the first byte. -/
def bytesOfNat : Nat → Nat → List Byte
  | 0, _ => []
  | n + 1, w => BitVec.ofNat 8 w :: bytesOfNat n (w / 256)

/-- The instruction bytes of a table word: bits `nbits - 1 : 0` of `w`, zeros above, up to the longest instruction. -/
def tableBytes (nbits w : Nat) : List Byte := bytesOfNat maxLength (w % 2 ^ nbits)

/-- The instruction the decoder reads, in `M64`, from a word of the opcode table. -/
def decodeTableWord (nbits w : Nat) : Option Instr :=
  match decode .m64 (tableBytes nbits w) with
  | .instr i _ => some i
  | .ud => none
  | .reject _ => none
  | .short => none

end Sys2Proof
end

