-- ==== Sys2Proof/Config.lean ====
section
/-! DEFINITION. What an implementation fixes (spec/00_scope.md R6, R7; the linear-address width of spec/20_memory.md R61)
and what the spec leaves open: the parameter `Translate` (R62) and the order of two checks (R63), as constants without a
body, so that a claim holds whatever they are. -/

namespace Sys2Proof

/-- The feature parameters of R7, and the foundation flag AVX512F that R40 reports beside them, which no rule tests. No
implication between them is relied on. -/
structure Features where
  sse2 : Bool
  avx : Bool
  avx2 : Bool
  avx512bw : Bool
  avx512vl : Bool
  avx512f : Bool
  deriving DecidableEq, Repr, Inhabited

/-- The two linear-address widths R61 names. -/
inductive LinearWidth where
  | w48 | w57
  deriving DecidableEq, Repr, Inhabited

structure Config where
  maxvl : VecLen
  features : Features
  linear : LinearWidth
  deriving DecidableEq, Repr, Inhabited

/-- The constraints between `MAXVL` and the features: R6, and for AVX2 the spec's remark B11 that an encoding wider than
`MAXVL` has its feature flag false (assumption 3, DEDUCED). -/
def Config.wf (c : Config) : Bool :=
  (!c.features.avx512bw || c.maxvl == .v512) &&
  (!(c.features.avx || c.features.avx2) || c.maxvl != .v128)

/-- What `Translate` classifies an admitted access as (R62). -/
inductive MemType where
  | ordinary | device
  deriving DecidableEq, Repr, Inhabited

/-- `Translate`'s answer without the bytes (R62). -/
inductive Verdict where
  | ok (ty : MemType)
  | gp
  | ss
  | pf (code : BitVec 32) (addr : Addr)
  deriving DecidableEq, Repr, Inhabited

/-- FREE VALUE (assumption 10): the verdict of a platform's `Translate` on a read of `n` bytes at `addr`, a function of
the paging state, the memory state, the address, the length and the privilege level, as R62 types it. -/
opaque Config.translateVerdict (paging : Nat) (mem : List (Nat × Byte)) (addr : Addr) (n : Nat) (cpl : BitVec 2) : Verdict

/-- FREE VALUE (assumption 10): byte `i` of the bytes a platform's `Translate` answers with. -/
opaque Config.translateByte (paging : Nat) (mem : List (Nat × Byte)) (addr : Addr) (n : Nat) (cpl : BitVec 2) (i : Nat) : Byte

/-- What the fetch of one byte meets (R196): memory, a device, or a page fault with its error code (assumption 13). -/
inductive FetchVerdict where
  | ordinary
  | device
  | pf (code : BitVec 32)
  deriving DecidableEq, Repr, Inhabited

/-- FREE VALUE (assumption 13): what a platform's paging answers to the fetch of the instruction byte at `addr`. -/
opaque Config.fetchVerdict (paging : Nat) (mem : List (Nat × Byte)) (addr : Addr) (cpl : BitVec 2) : FetchVerdict

/-- FREE VALUE (assumption 13): the error code of a page fault of the fetch on the flat instance; no rule states it. -/
opaque Config.fetchFaultCode (mem : List (Nat × Byte)) (addr : Addr) (cpl : BitVec 2) : BitVec 32

/-- FREE VALUE (assumption 17): whether the alignment check of a legacy memory source is made before the check of its
segment, where the two would raise different exceptions (R63, decision D12: either is admitted). -/
opaque Config.alignmentFirst (choice : Nat) : Bool

end Sys2Proof
end

