-- ==== Sys2Proof/Machine/State.lean ====
section
/-! DEFINITION. The state (spec/10_state.md), the exceptions (spec/60_exceptions.md R180, R198), the reasons a step stops, and
the state after reset (R45). `cfg`, `translation` and `freeIndex` are the model's own fields: the constants of the machine,
which instance of `Translate` the platform has, and the argument of a free value. -/

namespace Sys2Proof.Machine

/-- A segment register: selector and hidden part, as far as R31, R39 and R61 name it (`l` and `d` are the code segment's).
The widths of the selector (16), of the limit (32), and of the base of `ES`, `CS`, `SS` and `DS` (64) are PRESUMED (assumption 36). -/
structure Segment where
  selector : BitVec 16
  base : Addr
  limit : BitVec 32
  readable : Bool
  l : Bool
  d : Bool
  deriving DecidableEq, Repr, Inhabited

/-- A range of linear addresses the flat `Translate` does not answer as ordinary memory (R58, R62). -/
inductive RegionKind where
  | absent | device
  deriving DecidableEq, Repr, Inhabited

structure Region where
  base : Nat
  size : Nat
  kind : RegionKind
  deriving DecidableEq, Repr, Inhabited

/-- `Translate` (R62), an instance of the parameter (assumption 10): the flat one, its allocated set being every address
outside the absent regions; one that gives every read the same answer; or the platform's own, left open, under an
uninterpreted paging state. -/
inductive Translation where
  | flat (map : List Region)
  | uniform (answer : Verdict)
  | platform (paging : Nat)
  deriving DecidableEq, Repr, Inhabited

/-- Memory: bytes by linear address, in the canonical form of `Memory.wf`. -/
abbrev Memory := List Host.Cell

structure State where
  cfg : Config
  /-- `V[0..31]` (R20), each in 512 bits of which those at and above `MAXVL` are zero (assumption 2). -/
  vec : Vector Vec 32
  /-- `K[0..7]` (R25): 64 bits each, without AVX512BW too, where R25 gives no width (assumption 34, PRESUMED). -/
  k : Vector (BitVec 64) 8
  /-- The general registers (R30). -/
  gpr : Vector (BitVec 64) 16
  rip : Addr
  /-- The flags register (R29); its width is PRESUMED (assumption 35). -/
  rflags : BitVec 64
  /-- R27; its width is PRESUMED (assumption 35). -/
  mxcsr : BitVec 32
  cr0 : BitVec 64
  /-- The faulting linear address (R198); its width is PRESUMED (assumption 35). -/
  cr2 : BitVec 64
  /-- R37; its width is PRESUMED (assumption 35). -/
  cr4 : BitVec 64
  xcr0 : BitVec 64
  /-- `IA32_EFER` (R39); its width is PRESUMED (assumption 35). -/
  efer : BitVec 64
  es : Segment
  cs : Segment
  ss : Segment
  ds : Segment
  fs : Segment
  gs : Segment
  /-- The current privilege level (R210). -/
  cpl : BitVec 2
  /-- The base in `IDTR` (R202), its width PRESUMED (assumption 35); nothing of the model reads it, since it delivers no exception (R201). -/
  idtrBase : Addr
  /-- A breakpoint or the trap flag is armed (R214). -/
  debugArmed : Bool
  mem : Memory
  translation : Translation
  freeIndex : Nat
  deriving DecidableEq, Repr

/-- The exceptions this instruction can raise (R180); `#PF` with its error code and the faulting linear address. -/
inductive Exception where
  | ud
  | nm
  | ss
  | gp
  | pf (code : BitVec 32) (addr : Addr)
  deriving DecidableEq, Repr, Inhabited

/-- What a raise records (R198, R201): the vector, the error code where one is pushed, the faulting linear address of a
page fault, the value `CR2` then holds, and the saved instruction pointer. -/
structure ExceptionRecord where
  vector : Nat
  errorCode : Option (BitVec 32)
  address : Option Addr
  cr2 : BitVec 64
  savedRip : Addr
  deriving DecidableEq, Repr

/-- Why the machine stops with a fault. -/
inductive Fault where
  /-- Raised by the decoder's `#UD`, by the fetch for an instruction of more than 15 bytes (assumption 37), and by every
  meaning, for an exception of R180: the run ends with the state unchanged (R201). Safe: on hardware a handler would run
  (assumption 8). -/
  | exception (r : ExceptionRecord)
  /-- Raised by the fetch when a byte of the instruction meets a page fault: the same record with vector 14, before decode
  (R196). Its error code is a free value (assumption 13). Safe. -/
  | fetchPageFault (r : ExceptionRecord)
  deriving DecidableEq, Repr

/-- Why a step has no meaning. -/
inductive Refusal where
  /-- Used by a dispatch arm without a meaning. Safe. -/
  | notModelled (mnemonic : String)
  /-- Raised by every step outside `M64` and `M32` (R8, decision D2). Safe. -/
  | unsupportedMode
  /-- Raised by every step with a breakpoint or single step armed (R214). Safe. -/
  | debugArmed
  /-- Raised by the fetch when `rip` is not canonical or lies beyond the code segment limit (R28, decision D6). Safe. -/
  | instructionPointer
  /-- Raised by a memory source, or a fetch, that lies in a device's range (R58, decision D11). Safe. -/
  | deviceMemory
  /-- Raised by the decoder for bytes outside the admitted set (R120, decision D1). Safe. -/
  | notAdmitted (r : RejectReason)
  /-- Raised by the run of a program, and by no step, when the program's bytes end inside an instruction (R17, R226,
  decision D19; assumption 38). Safe. -/
  | programEnd
  deriving DecidableEq, Repr

/-- The reset value of a data segment register: the family's (assumption 4, PRESUMED). -/
def Segment.reset : Segment :=
  { selector := 0, base := 0, limit := 0xFFFF, readable := true, l := false, d := false }

/-- The constants of the reset machine: everything present (assumption 1, DESIGN CHOICE). -/
def resetConfig : Config :=
  { maxvl := .v512
    features := { sse2 := true, avx := true, avx2 := true, avx512bw := true, avx512vl := true, avx512f := true }
    linear := .w48 }

/-- The machine right after reset (R45, R221). Values R45 does not give are named in assumptions 1, 4, 5, 9, 10, 17. -/
def State.reset : State where
  cfg := resetConfig
  vec := Vector.replicate 32 0
  k := Vector.replicate 8 0
  gpr := Vector.replicate 16 0
  rip := 0xFFF0
  rflags := 0x2
  mxcsr := 0x1F80
  cr0 := 0x60000010
  cr2 := 0
  cr4 := 0
  xcr0 := 1
  efer := 0
  es := Segment.reset
  cs := { Segment.reset with selector := 0xF000, base := 0xFFFF0000 }
  ss := Segment.reset
  ds := Segment.reset
  fs := Segment.reset
  gs := Segment.reset
  cpl := 0
  idtrBase := 0
  debugArmed := false
  mem := []
  translation := .flat []
  freeIndex := 0

end Sys2Proof.Machine
end

