-- ==== Sys2Proof/Machine/Flags.lean ====
section
/-! DEFINITION. The fields of the status and control registers the rules read, and the tests made on them: `MODE`
(spec/10_state.md R39), the feature and enable tests that raise `#UD` (spec/60_exceptions.md R184 to R189) and the one that
raises `#NM` (R193). No instruction of this hardware computes a flag (R29, R159), so there is no flag computation here. -/

namespace Sys2Proof.Machine

/-! ### Control-register fields (R29, R36 to R39) -/

def State.cr0PE (s : State) : Bool := s.cr0.getLsbD 0
def State.cr0EM (s : State) : Bool := s.cr0.getLsbD 2
def State.cr0TS (s : State) : Bool := s.cr0.getLsbD 3
def State.cr0AM (s : State) : Bool := s.cr0.getLsbD 18
def State.cr4OSFXSR (s : State) : Bool := s.cr4.getLsbD 9
def State.cr4OSXSAVE (s : State) : Bool := s.cr4.getLsbD 18
def State.flagVM (s : State) : Bool := s.rflags.getLsbD 17
def State.flagAC (s : State) : Bool := s.rflags.getLsbD 18
def State.eferLMA (s : State) : Bool := s.efer.getLsbD 10

/-- `MODE` (R39); `none` is a mode the spec refuses (R8). `PE` is 1 in every admitted mode, `M64` among them (R36, R222;
assumption 32). System-management mode is told by no field of the spec and is not told here (assumption 40). -/
def State.mode (s : State) : Option Mode :=
  if !s.cr0PE then none
  else if s.eferLMA && s.cs.l then some .m64
  else if !s.flagVM && s.cs.d then some .m32
  else none

/-! ### The `#UD` and `#NM` tests -/

/-- The feature flags of an encoding hold (R2, R184). -/
def featurePresent (f : Form) (c : Features) : Bool :=
  match f with
  | .leg => c.sse2
  | .vex128 => c.avx
  | .vex256 => c.avx2
  | .evex128 => c.avx512vl && c.avx512bw
  | .evex256 => c.avx512vl && c.avx512bw
  | .evex512 => c.avx512bw

/-- `XCR0[2:1] = 11b` (R38). -/
def State.xcr0Avx (s : State) : Bool := s.xcr0.extractLsb' 1 2 == 0b11#2

/-- `XCR0[7:5] = 111b` (R38). -/
def State.xcr0Avx512 (s : State) : Bool := s.xcr0.extractLsb' 5 3 == 0b111#3

/-- The operating system has enabled the SSE state (R185). -/
def State.osSse (s : State) : Bool := !s.cr0EM && s.cr4OSFXSR

/-- The operating system has enabled the AVX state (R187). -/
def State.osAvx (s : State) : Bool := s.cr4OSXSAVE && s.xcr0Avx

/-- The operating system has enabled the AVX-512 state (R189). -/
def State.osAvx512 (s : State) : Bool := s.cr4OSXSAVE && s.xcr0Avx && s.xcr0Avx512

def State.osEnabled (s : State) (f : Form) : Bool :=
  match f with
  | .leg => s.osSse
  | .vex128 => s.osAvx
  | .vex256 => s.osAvx
  | .evex128 => s.osAvx512
  | .evex256 => s.osAvx512
  | .evex512 => s.osAvx512

/-- The exception the state-dependent tests raise before any operand is read: `#UD`, then `#NM` (R199). -/
def State.formFault (s : State) (f : Form) : Option Exception :=
  if !(featurePresent f s.cfg.features && s.osEnabled f) then some .ud
  else if s.cr0TS then some .nm
  else none

/-! ### CPUID reporting (R40) -/

/-- The CPUID words R40 speaks of: `CPUID.01H:ECX`, `CPUID.01H:EDX`, `CPUID.(EAX=07H,ECX=0):EBX`. -/
inductive CpuidWord where
  | leaf1Ecx | leaf1Edx | leaf7Ebx
  deriving DecidableEq, Repr

/-- The bits of those words that R40 gives, in a state: the feature flags, constants of the configuration, and the mirror of
`CR4.OSXSAVE`; `none` for every other bit. -/
def State.cpuidBit (s : State) : CpuidWord → Nat → Option Bool
  | .leaf1Edx, 26 => some s.cfg.features.sse2
  | .leaf1Ecx, 27 => some s.cr4OSXSAVE
  | .leaf1Ecx, 28 => some s.cfg.features.avx
  | .leaf7Ebx, 5 => some s.cfg.features.avx2
  | .leaf7Ebx, 16 => some s.cfg.features.avx512f
  | .leaf7Ebx, 30 => some s.cfg.features.avx512bw
  | .leaf7Ebx, 31 => some s.cfg.features.avx512vl
  | _, _ => none

/-- The feature parameters of a machine whose CPUID words these are (R40). -/
def featuresOfCpuid (ecx1 edx1 ebx7 : BitVec 32) : Features :=
  { sse2 := edx1.getLsbD 26
    avx := ecx1.getLsbD 28
    avx2 := ebx7.getLsbD 5
    avx512bw := ebx7.getLsbD 30
    avx512vl := ebx7.getLsbD 31
    avx512f := ebx7.getLsbD 16 }

end Sys2Proof.Machine
end

