-- ==== Sys2Proof/Machine/Ops.lean ====
section
/-! DEFINITION. The named operations over registers and memory: register access (spec/10_state.md R20 to R31), memory
(spec/20_memory.md R50 to R62), raising an exception (spec/60_exceptions.md R198 to R201), the instruction pointer (R28), and
fetching an instruction's bytes (R69, R196, R226). -/

namespace Sys2Proof.Machine

abbrev Result := Host.Outcome State Fault Refusal

/-! ### Vectors from equal pieces -/

/-- The vector whose piece `j` (bits `w*j + w - 1 : w*j`) is `f j` for `j < n`, and whose other bits are zero. -/
def ofPieces (w : Nat) : Nat → (Nat → BitVec w) → Vec
  | 0, _ => 0
  | n + 1, f => ofPieces w n f ||| ((f n).setWidth 512 <<< (w * n))

/-- `word(v, n)` (R15). -/
def word (v : Vec) (n : Nat) : Word := v.extractLsb' (16 * n) 16

/-- The low `VL` bits, the rest zero. -/
def lowBits (vl : VecLen) (v : Vec) : Vec := (v.setWidth vl.bits).setWidth 512

/-! ### Registers -/

/-- `V[n]` (R20). -/
def State.readVec (s : State) (n : Fin 32) : Vec := s.vec[n]

/-- `V[n] <- v`: a vector register has `MAXVL` bits (R20). -/
def State.writeVec (s : State) (n : Fin 32) (v : Vec) : State :=
  { s with vec := s.vec.set n (lowBits s.cfg.maxvl v) }

/-- `K[n]` (R25). -/
def State.readMask (s : State) (n : BitVec 3) : BitVec 64 := s.k[n.toFin]

/-- `x[n]` (R30). -/
def State.readGpr (s : State) (n : Fin 16) : BitVec 64 := s.gpr[n]

/-- The segment registers by name (R31). -/
def State.segment (s : State) : SegName → Segment
  | .es => s.es | .cs => s.cs | .ss => s.ss | .ds => s.ds | .fs => s.fs | .gs => s.gs

/-- The instruction pointer in use: 64 bits in `M64`, 32 in `M32` (R28). -/
def State.ip (s : State) (m : Mode) : Addr :=
  match m with
  | .m64 => s.rip
  | .m32 => (s.rip.setWidth 32).setWidth 64

/-- The address of the byte after an instruction of `len` bytes: a sum of 64 bits in `M64`, modulo 2^32 in `M32` (R28). -/
def State.nextRip (s : State) (m : Mode) (len : Nat) : Addr :=
  match m with
  | .m64 => s.rip + BitVec.ofNat 64 len
  | .m32 => ((s.rip + BitVec.ofNat 64 len).setWidth 32).setWidth 64

/-- `pc <- rip + len` (R160). -/
def State.advance (s : State) (m : Mode) (len : Nat) : State :=
  { s with rip := s.nextRip m len }

/-! ### Raising an exception -/

def Exception.vector : Exception → Nat
  | .ud => 6 | .nm => 7 | .ss => 12 | .gp => 13 | .pf _ _ => 14

/-- The error code of a page fault this instruction raises: `W/R` (bit 1) and `I/D` (bit 4) are 0 and `U/S` (bit 2) is 1
exactly at privilege level 3; the other bits are `Translate`'s (R198; assumption 11). -/
def pageFaultCode (cpl : BitVec 2) (code : BitVec 32) : BitVec 32 :=
  (code &&& ~~~0b10110#32) ||| (if cpl = 3#2 then 0b100#32 else 0#32)

/-- The error code each exception pushes (R180, R198). -/
def Exception.errorCode (cpl : BitVec 2) : Exception → Option (BitVec 32)
  | .ud => none
  | .nm => none
  | .ss => some 0
  | .gp => some 0
  | .pf code _ => some (pageFaultCode cpl code)

/-- The address a page fault reports (R198). -/
def Exception.address : Exception → Option Addr
  | .ud => none | .nm => none | .ss => none | .gp => none
  | .pf _ a => some a

/-- What an exception records in the state it is raised in (R198). -/
def Exception.record (x : Exception) (s : State) : ExceptionRecord :=
  { vector := x.vector
    errorCode := x.errorCode s.cpl
    address := x.address
    cr2 := x.address.getD s.cr2
    savedRip := s.rip }

/-- Taking an exception, the one place where it is done: the run ends in `Fault(vector, error code, address)` and no
architectural state is changed but what the record says (R200, R201, decision D16). There is no return from one, since
there is no entry (R203). -/
def raise (x : Exception) (s : State) : Result := .fault (.exception (x.record s))

/-! ### Memory -/

/-- What an unlisted address reads as (assumption 9, DESIGN CHOICE: the spec gives memory no reset contents). -/
def unlistedByte : Byte := 0

def Memory.read : Memory → Nat → Byte
  | [], _ => unlistedByte
  | (k, v) :: t, a => if k = a then v else Memory.read t a

/-- `v` at `a`, in canonical form: an unlisted address is one that holds `unlistedByte`. -/
def Memory.write : Memory → Nat → Byte → Memory
  | [], a, v => if v = unlistedByte then [] else [(a, v)]
  | (k, x) :: t, a, v =>
    if a < k then (if v = unlistedByte then (k, x) :: t else (a, v) :: (k, x) :: t)
    else if a = k then (if v = unlistedByte then t else (a, v) :: t)
    else (k, x) :: Memory.write t a v

/-- Every address at or above `lo`, strictly rising, below 2^64, and no entry equal to what an unlisted address reads as. -/
def Memory.wfFrom : Nat → Memory → Bool
  | _, [] => true
  | lo, (k, v) :: t => decide (lo ≤ k) && decide (k < 2 ^ 64) && v != unlistedByte && Memory.wfFrom (k + 1) t

/-- The canonical form. -/
def Memory.wf (m : Memory) : Bool := Memory.wfFrom 0 m

/-- The byte at a linear address (R51). -/
def State.readByte (s : State) (a : Addr) : Byte := Memory.read s.mem a.toNat

/-- A byte stored from outside the machine: no instruction writes memory (R54). -/
def State.storeByte (s : State) (a : Addr) (v : Byte) : State :=
  { s with mem := Memory.write s.mem a.toNat v }

/-- The address of byte `i` of an access at `a`: addresses have 64 bits in `M64` and 32 in `M32` (R51; assumption 15). -/
def byteAddr (m : Mode) (a : Addr) (i : Nat) : Addr :=
  match m with
  | .m64 => a + BitVec.ofNat 64 i
  | .m32 => ((a + BitVec.ofNat 64 i).setWidth 32).setWidth 64

def byteAddrs (m : Mode) (a : Addr) (n : Nat) : List Addr := (List.range n).map (byteAddr m a)

def Region.covers (r : Region) (a : Addr) : Bool := decide (r.base ≤ a.toNat) && decide (a.toNat < r.base + r.size)

/-- The first region of the map that covers an address; `none` is ordinary memory. -/
def regionAt (map : List Region) (a : Addr) : Option RegionKind := (map.find? (·.covers a)).map (·.kind)

/-- The flat instance of R62: `#PF` with the first unallocated address, else the class of the bytes. -/
def flatVerdict (map : List Region) (addrs : List Addr) : Verdict :=
  match addrs.find? (fun a => regionAt map a == some .absent) with
  | some a => .pf 0 a
  | none => if addrs.any (fun a => regionAt map a == some .device) then .ok .device else .ok .ordinary

/-- `Translate(addr, n, read, cpl)` without its bytes (R62). -/
def State.translate (s : State) (m : Mode) (a : Addr) (n : Nat) : Verdict :=
  match s.translation with
  | .flat map => flatVerdict map (byteAddrs m a n)
  | .uniform answer => answer
  | .platform paging => Config.translateVerdict paging s.mem a n s.cpl

/-- Byte `i` of what `Translate` answers (R62). -/
def State.translatedByte (s : State) (m : Mode) (a : Addr) (n i : Nat) : Byte :=
  match s.translation with
  | .flat _ => s.readByte (byteAddr m a i)
  | .uniform _ => s.readByte (byteAddr m a i)
  | .platform paging => Config.translateByte paging s.mem a n s.cpl i

/-- What obtaining a value answers: the value, or the exception or refusal that ends the step. -/
inductive Read where
  | ok (v : Vec)
  | raised (x : Exception)
  | refused (r : Refusal)
  deriving DecidableEq, Repr

/-- `MemRead(addr, n)` (R52): little-endian (R50), all `n` bytes (R53), ordinary memory only (R58). -/
def State.memRead (s : State) (m : Mode) (a : Addr) (n : Nat) : Read :=
  match s.translate m a n with
  | .ok .ordinary => .ok (ofPieces 8 n (s.translatedByte m a n))
  | .ok .device => .refused .deviceMemory
  | .gp => .raised .gp
  | .ss => .raised .ss
  | .pf code addr => .raised (.pf code addr)

/-! ### Address legality -/

/-- A canonical linear address: bits `[63:47]`, or `[63:56]`, all equal (R61). -/
def canonical (w : LinearWidth) (a : Addr) : Bool :=
  match w with
  | .w48 => a.extractLsb' 47 17 == 0#17 || a.extractLsb' 47 17 == BitVec.allOnes 17
  | .w57 => a.extractLsb' 56 8 == 0#8 || a.extractLsb' 56 8 == BitVec.allOnes 8

/-- A null selector: index zero in the global table, whatever the two low bits (assumption 16, PRESUMED). -/
def Segment.isNull (g : Segment) : Bool := g.selector.extractLsb' 2 14 == 0#14

/-- `[ea, ea+n-1]` within the limit (R61). -/
def Segment.inLimit (g : Segment) (ea : Addr) (n : Nat) : Bool := decide (ea.toNat + n ≤ g.limit.toNat + 1)

/-- The exception an address illegal in segment `seg` raises (R61, R194, R195). -/
def segmentException : SegName → Exception
  | .ss => .ss
  | .es => .gp | .cs => .gp | .ds => .gp | .fs => .gp | .gs => .gp

/-- The legality of an access before translation (R61): every byte canonical in `M64`; segment present, readable and long
enough in `M32`. -/
def State.illegal (s : State) (m : Mode) (seg : SegName) (ea linear : Addr) (n : Nat) : Option Exception :=
  match m with
  | .m64 => if (byteAddrs .m64 linear n).all (canonical s.cfg.linear) then none else some (segmentException seg)
  | .m32 =>
    if (s.segment seg).isNull then some .gp
    else if (s.segment seg).inLimit ea n && (s.segment seg).readable then none
    else some (segmentException seg)

/-- The checks on a memory source before translation, in the order of R63: alignment (legacy only, R55), then legality. Where
the two would raise different exceptions, which comes first is left open (decision D12; assumption 17). -/
def State.addressFault (s : State) (m : Mode) (aligned : Bool) (seg : SegName) (ea linear : Addr) (n : Nat) :
    Option Exception :=
  let bad := s.illegal m seg ea linear n
  if aligned && linear.extractLsb' 0 4 != 0#4 then
    if bad = some .ss then (if Config.alignmentFirst s.freeIndex then some .gp else some .ss) else some .gp
  else bad

/-! ### Fetch -/

/-- Why a byte of the instruction cannot be fetched. -/
inductive FetchStop where
  | instructionPointer
  | pageFault (code : BitVec 32) (a : Addr)
  | device
  deriving DecidableEq, Repr

/-- The linear address of instruction byte `i` (R28, R51, R69). -/
def State.fetchAddr (s : State) (m : Mode) (i : Nat) : Addr :=
  match m with
  | .m64 => byteAddr .m64 (s.ip .m64) i
  | .m32 => byteAddr .m32 (s.cs.base + s.ip .m32) i

/-- `rip + i` is canonical in `M64`, within the code segment limit in `M32` (R28). -/
def State.ripOk (s : State) (m : Mode) (i : Nat) : Bool :=
  match m with
  | .m64 => canonical s.cfg.linear (byteAddr .m64 (s.ip .m64) i)
  | .m32 => decide ((s.ip .m32).toNat + i ≤ s.cs.limit.toNat)

/-- What the fetch of the byte at a linear address meets (R196). The byte itself is always the memory's at that address, the
program bytes being a parameter of the step (R67); an instance that answers every read alike says nothing of the fetch
(assumption 13). -/
def State.translateFetch (s : State) (a : Addr) : FetchVerdict :=
  match s.translation with
  | .flat map =>
    match regionAt map a with
    | none => .ordinary
    | some .device => .device
    | some .absent => .pf (Config.fetchFaultCode s.mem a s.cpl)
  | .uniform _ => .ordinary
  | .platform paging => Config.fetchVerdict paging s.mem a s.cpl

def State.fetchStop (s : State) (m : Mode) (i : Nat) : Option FetchStop :=
  if !s.ripOk m i then some .instructionPointer
  else match s.translateFetch (s.fetchAddr m i) with
    | .ordinary => none
    | .device => some .device
    | .pf code => some (.pageFault code (s.fetchAddr m i))

/-- The instruction bytes from byte `i` on, at most `n` of them, and what stopped the fetch, if anything. -/
def State.fetchFrom (s : State) (m : Mode) : Nat → Nat → List Byte × Option FetchStop
  | 0, _ => ([], none)
  | n + 1, i =>
    match s.fetchStop m i with
    | some r => ([], some r)
    | none => (s.readByte (s.fetchAddr m i) :: (s.fetchFrom m n (i + 1)).1, (s.fetchFrom m n (i + 1)).2)

/-- The bytes at `rip`, at most fifteen (R80). -/
def State.fetch (s : State) (m : Mode) : List Byte × Option FetchStop := s.fetchFrom m maxLength 0

/-- What a step does once its bytes are known: run an instruction, or end there. -/
inductive Fetched where
  | run (i : Instr)
  | stop (o : Result)

/-- The record of a page fault on the instruction's own bytes: the vector of a page fault, the address, `CR2` receiving it (R196,
R198), and the code the fetch met. -/
def fetchPageFaultRecord (code : BitVec 32) (a : Addr) (s : State) : ExceptionRecord :=
  { Exception.record (.pf code a) s with errorCode := some code }

/-- The outcome when the bytes run out before the instruction does: the fault of the fetch, or `#GP(0)` when fifteen bytes
were not enough (R113, R195, R199; 93 B14 has the model refuse there: assumption 37, DEDUCED). -/
def State.fetchFault (s : State) : Option FetchStop → Result
  | none => raise .gp s
  | some .instructionPointer => .refused .instructionPointer
  | some (.pageFault code a) => .fault (.fetchPageFault (fetchPageFaultRecord code a s))
  | some .device => .refused .deviceMemory

/-- Step (1) of R167: fetch and decode. -/
def State.fetchDecode (s : State) : Fetched :=
  if s.debugArmed then .stop (.refused .debugArmed)
  else match s.mode with
    | none => .stop (.refused .unsupportedMode)
    | some m =>
      match decode m (s.fetch m).1 with
      | .instr i _ => .run i
      | .ud => .stop (raise .ud s)
      | .reject r => .stop (.refused (.notAdmitted r))
      | .short => .stop (s.fetchFault (s.fetch m).2)

/-! ### Launching a program from outside -/

/-- The premises of R222 that control fields state, set as system software would have set them, in `M64`: `PE`, no `EM`, no
`TS`, `OSFXSR`, `OSXSAVE`, `XCR0[2:1]`, `XCR0[7:5]`, long mode with a 64-bit code segment; nothing armed (assumption 6). -/
def State.launch (s : State) : State :=
  { s with
    cr0 := (s.cr0 ||| 1#64) &&& ~~~0b1100#64
    cr4 := s.cr4 ||| 0x40200#64
    xcr0 := s.xcr0 ||| 0xE6#64
    efer := s.efer ||| 0x400#64
    cs := { s.cs with l := true }
    debugArmed := false }

/-- Bytes stored from byte `i` of the next instruction on. -/
def State.storeCode (s : State) (m : Mode) : List Byte → Nat → State
  | [], _ => s
  | b :: bs, i => (s.storeByte (s.fetchAddr m i) b).storeCode m bs (i + 1)

end Sys2Proof.Machine
end

