-- ==== Sys2Proof/Machine/Operands.lean ====
section
/-! DEFINITION. Operands: register numbers (spec/30_encoding.md R84, R100 to R103), the effective and linear address of a memory
source (R88 to R91, R104, R105, R110), and the source value (spec/40_pshufhw.md R143). -/

namespace Sys2Proof.Machine

/-! ### Register numbers -/

/-- A vector register number from its bits, the high ones dropped in `M32` (R23, R100). -/
def vecNum (m : Mode) (hi mid : Bool) (low : BitVec 3) : Fin 32 :=
  match m with
  | .m64 => (BitVec.ofBool hi ++ BitVec.ofBool mid ++ low : BitVec 5).toFin
  | .m32 => (0#2 ++ low : BitVec 5).toFin

/-- The destination: `R':R:reg` (EVEX), `R:reg` (LEG, VEX), whose formats have no `R'` (R100 to R102). -/
def destNum (m : Mode) (e : Ext) (reg : BitVec 3) : Fin 32 := vecNum m e.rHi e.r reg

/-- A register source: `X:B:rm` (EVEX), `B:rm` (LEG, VEX) (R100 to R102). -/
def srcNum (m : Mode) (f : Form) (e : Ext) (n : BitVec 3) : Fin 32 := vecNum m (f.isEvex && e.x) e.b n

/-- A base or index register: the extension bit and three bits (R103), in `M32` the three bits (R30; assumption 26). -/
def gprNum (m : Mode) (hi : Bool) (low : BitVec 3) : Fin 16 :=
  match m with
  | .m64 => (BitVec.ofBool hi ++ low : BitVec 4).toFin
  | .m32 => (0#1 ++ low : BitVec 4).toFin

/-! ### Effective address -/

/-- `N`, the scale of a 1-byte displacement: `VL/8` in EVEX (tuple type Full Mem), 1 elsewhere (R110). -/
def disp8Scale (f : Form) : Nat := if f.isEvex then f.vl.bytes else 1

/-- A displacement, sign-extended, a 1-byte one scaled (R88, R90, R110). -/
def dispValue (n : Nat) : Disp → Addr
  | .none => 0
  | .d8 d => d.signExtend 64 * BitVec.ofNat 64 n
  | .d32 d => d.signExtend 64

/-- The parts of an effective address. -/
structure MemOperand where
  base : Option (Fin 16)
  index : Option (Fin 16)
  scale : BitVec 2
  disp : Addr
  ripRelative : Bool
  deriving DecidableEq, Repr

/-- Register number 4 names no index (R89). -/
def indexReg (m : Mode) (e : Ext) (index : BitVec 3) : Option (Fin 16) :=
  if gprNum m e.x index = 4 then none else some (gprNum m e.x index)

/-- The memory forms (R88 to R90). -/
def memOperand (m : Mode) (e : Ext) (n : Nat) : MemField → MemOperand
  | .base r d => ⟨some (gprNum m e.b r), none, 0, dispValue n d, false⟩
  | .disp32 d => ⟨none, none, 0, d.signExtend 64, m == .m64⟩
  | .sib ss i b d => ⟨some (gprNum m e.b b), indexReg m e i, ss, dispValue n d, false⟩
  | .sibDisp32 ss i d => ⟨none, indexReg m e i, ss, d.signExtend 64, false⟩

/-- `base + index*scale + disp`, in 64 bits. `ripNext` is the address of the byte after the instruction. -/
def MemOperand.sum (o : MemOperand) (s : State) (ripNext : Addr) : Addr :=
  (match o.base with
    | some b => s.readGpr b
    | none => if o.ripRelative then ripNext else 0) +
  (match o.index with
    | some i => s.readGpr i <<< o.scale.toNat
    | none => 0) + o.disp

/-- 64-bit addressing in `M64` without `67h`, else 32-bit addressing: the sum modulo 2^32, zero-extended (R88, R90).
In `M32` a `67h` of the term, which the decoder refuses there (R91), takes no part (assumption 26). -/
def effectiveAddress (m : Mode) (a67 : Bool) (o : MemOperand) (s : State) (ripNext : Addr) : Addr :=
  if m = .m64 ∧ a67 = false then o.sum s ripNext
  else ((o.sum s ripNext).setWidth 32).setWidth 64

/-! ### Segment and linear address -/

/-- `SS` for base register 4 or 5, else `DS` (R104). -/
def defaultSegment (o : MemOperand) : SegName :=
  if o.base = some 4 ∨ o.base = some 5 then .ss else .ds

/-- The segment of a memory source: in `M64` only an `FS` or `GS` override has an effect (R104). -/
def sourceSegment (m : Mode) (p : Prefixes) (o : MemOperand) : SegName :=
  match p.seg with
  | none => defaultSegment o
  | some n =>
    match m with
    | .m32 => n
    | .m64 => if n = .fs ∨ n = .gs then n else defaultSegment o

/-- R105. -/
def linearAddress (m : Mode) (seg : SegName) (ea : Addr) (s : State) : Addr :=
  match m with
  | .m32 => (((s.segment seg).base + ea).setWidth 32).setWidth 64
  | .m64 => if seg = .fs ∨ seg = .gs then (s.segment seg).base + ea else ea

/-! ### The source value -/

/-- Where a memory source lies: its segment, effective address and linear address. -/
structure MemPlace where
  seg : SegName
  ea : Addr
  linear : Addr
  deriving DecidableEq, Repr

/-- The place a memory form names, for an instruction of `len` bytes (R88 to R90, R104, R105, R110). -/
def memPlace (f : Form) (m : Mode) (p : Prefixes) (e : Ext) (fld : MemField) (len : Nat) (s : State) : MemPlace :=
  let o := memOperand m e (disp8Scale f) fld
  let ea := effectiveAddress m p.a67 o s (s.nextRip m len)
  let seg := sourceSegment m p o
  ⟨seg, ea, linearAddress m seg ea s⟩

/-- A memory source of an encoding: the checks of R63 on its place, and one `MemRead` of `VL/8` bytes (R53, R54, R59). -/
def memSource (f : Form) (m : Mode) (p : Prefixes) (e : Ext) (fld : MemField) (len : Nat) (s : State) : Read :=
  let a := memPlace f m p e fld len s
  match s.addressFault m (f == .leg) a.seg a.ea a.linear f.vl.bytes with
  | some x => .raised x
  | none => s.memRead m a.linear f.vl.bytes

/-- `SrcVal(VL)` (R143), bits at and above `VL` zero. -/
def srcVal (f : Form) (m : Mode) (p : Prefixes) (e : Ext) (rm : RmField) (len : Nat) (s : State) : Read :=
  match rm with
  | .reg n => .ok (lowBits f.vl (s.readVec (srcNum m f e n)))
  | .mem fld => memSource f m p e fld len s

end Sys2Proof.Machine
end

