-- ==== Sys2Proof/Machine/Shuffle.lean ====
section
/-! DEFINITION. The instruction family PSHUFHW / VPSHUFHW (spec/40_pshufhw.md): the lane function (R140), the vector function
(R142), write-masking (R156), the shared order of steps (R167), and one meaning for each row of the opcode table (R150 to
R155). -/

namespace Sys2Proof.Machine

/-- Field `n` of the immediate, `imm[2n+1:2n]` (R111). -/
def immField (imm : Byte) (n : Nat) : BitVec 2 := imm.extractLsb' (2 * n) 2

/-- Word `4 + f` of a lane (R140). -/
def highWord (s : Lane) (f : BitVec 2) : Word := s.extractLsb' (64 + 16 * f.toNat) 16

/-- `ShufHi(s, imm)` (R140). -/
def shufHi (s : Lane) (imm : Byte) : Lane :=
  highWord s (immField imm 3) ++ highWord s (immField imm 2) ++ highWord s (immField imm 1) ++
    highWord s (immField imm 0) ++ s.extractLsb' 0 64

/-- Lane `L` of a vector, `v[128L+127:128L]` (R16). -/
def lane (v : Vec) (l : Nat) : Lane := v.extractLsb' (128 * l) 128

/-- `ShufHiVec(s, imm, VL)` (R142), bits at and above `VL` zero. -/
def shufHiVec (vl : VecLen) (s : Vec) (imm : Byte) : Vec :=
  ofPieces 128 (vl.bits / 128) (fun l => shufHi (lane s l) imm)

/-- `MaskWords(old, t, KL, aaa, z)` (R156) with `mask` the value of `K[aaa]`; bits at and above `VL` zero. -/
def maskWords (vl : VecLen) (old t : Vec) (mask : BitVec 64) (aaa : BitVec 3) (z : Bool) : Vec :=
  ofPieces 16 vl.words (fun j =>
    if aaa = 0#3 ∨ mask.getLsbD j then word t j
    else if z then 0
    else word old j)

/-- The destination of the legacy form: `[127:0]` written, the bits above kept (R150, R158). -/
def keepUpper (old t : Vec) : Vec := old.extractLsb' 128 384 ++ t.extractLsb' 0 128

/-- The order of one instruction's steps (R167), all six encodings: the `#UD` and `#NM` tests, the source value, the result
`t`, one update of the destination (`write old t` at full width), the instruction pointer. -/
def runShuffle (f : Form) (p : Prefixes) (e : Ext) (reg : BitVec 3) (rm : RmField) (imm : Byte) (len : Nat)
    (write : Vec → Vec → Vec) (s : State) : Result :=
  match s.mode with
  | none => .refused .unsupportedMode
  | some m =>
    match s.formFault f with
    | some x => raise x s
    | none =>
      match srcVal f m p e rm len s with
      | .raised x => raise x s
      | .refused r => .refused r
      | .ok v =>
        let d := destNum m e reg
        .next ((s.writeVec d (write (s.readVec d) (shufHiVec f.vl v imm))).advance m len)

/-- `PSHUFHW xmm1, xmm2/m128, imm8` (R150). -/
def execPshufhw (p : Prefixes) (rex : Option Rex) (reg : BitVec 3) (rm : RmField) (imm : Byte) (s : State) : Result :=
  let i := Instr.pshufhw p rex reg rm imm
  runShuffle .leg p i.ext reg rm imm i.length keepUpper s

/-- `VPSHUFHW xmm1, xmm2/m128, imm8`, two-byte VEX (R151). -/
def execVpshufhw128Vex2 (p : Prefixes) (r : Bool) (reg : BitVec 3) (rm : RmField) (imm : Byte) (s : State) : Result :=
  let i := Instr.vpshufhw128Vex2 p r reg rm imm
  runShuffle .vex128 p i.ext reg rm imm i.length (fun _ t => t) s

/-- `VPSHUFHW xmm1, xmm2/m128, imm8`, three-byte VEX (R151). -/
def execVpshufhw128Vex3 (p : Prefixes) (r x b w : Bool) (reg : BitVec 3) (rm : RmField) (imm : Byte) (s : State) :
    Result :=
  let i := Instr.vpshufhw128Vex3 p r x b w reg rm imm
  runShuffle .vex128 p i.ext reg rm imm i.length (fun _ t => t) s

/-- `VPSHUFHW ymm1, ymm2/m256, imm8`, two-byte VEX (R152). -/
def execVpshufhw256Vex2 (p : Prefixes) (r : Bool) (reg : BitVec 3) (rm : RmField) (imm : Byte) (s : State) : Result :=
  let i := Instr.vpshufhw256Vex2 p r reg rm imm
  runShuffle .vex256 p i.ext reg rm imm i.length (fun _ t => t) s

/-- `VPSHUFHW ymm1, ymm2/m256, imm8`, three-byte VEX (R152). -/
def execVpshufhw256Vex3 (p : Prefixes) (r x b w : Bool) (reg : BitVec 3) (rm : RmField) (imm : Byte) (s : State) :
    Result :=
  let i := Instr.vpshufhw256Vex3 p r x b w reg rm imm
  runShuffle .vex256 p i.ext reg rm imm i.length (fun _ t => t) s

/-- `VPSHUFHW xmm1 {k1}{z}, xmm2/m128, imm8` (R153). -/
def execVpshufhw128Evex (p : Prefixes) (e : Ext) (w z : Bool) (aaa reg : BitVec 3) (rm : RmField) (imm : Byte)
    (s : State) : Result :=
  let i := Instr.vpshufhw128Evex p e w z aaa reg rm imm
  runShuffle .evex128 p e reg rm imm i.length (fun old t => maskWords .v128 old t (s.readMask aaa) aaa z) s

/-- `VPSHUFHW ymm1 {k1}{z}, ymm2/m256, imm8` (R154). -/
def execVpshufhw256Evex (p : Prefixes) (e : Ext) (w z : Bool) (aaa reg : BitVec 3) (rm : RmField) (imm : Byte)
    (s : State) : Result :=
  let i := Instr.vpshufhw256Evex p e w z aaa reg rm imm
  runShuffle .evex256 p e reg rm imm i.length (fun old t => maskWords .v256 old t (s.readMask aaa) aaa z) s

/-- `VPSHUFHW zmm1 {k1}{z}, zmm2/m512, imm8` (R155). -/
def execVpshufhw512Evex (p : Prefixes) (e : Ext) (w z : Bool) (aaa reg : BitVec 3) (rm : RmField) (imm : Byte)
    (s : State) : Result :=
  let i := Instr.vpshufhw512Evex p e w z aaa reg rm imm
  runShuffle .evex512 p e reg rm imm i.length (fun old t => maskWords .v512 old t (s.readMask aaa) aaa z) s

end Sys2Proof.Machine
end

