-- ==== Sys2Proof/Machine/Dispatch.lean ====
section
/-! DEFINITION. One arm per constructor of Instr, each one direct call of its meaning. -/

namespace Sys2Proof.Machine

def exec (i : Instr) (s : State) : Host.Outcome State Fault Refusal :=
  match i with
  | .pshufhw p rex reg rm imm => Sys2Proof.Machine.execPshufhw p rex reg rm imm s
  | .vpshufhw128Vex2 p r reg rm imm => Sys2Proof.Machine.execVpshufhw128Vex2 p r reg rm imm s
  | .vpshufhw128Vex3 p r x b w reg rm imm => Sys2Proof.Machine.execVpshufhw128Vex3 p r x b w reg rm imm s
  | .vpshufhw256Vex2 p r reg rm imm => Sys2Proof.Machine.execVpshufhw256Vex2 p r reg rm imm s
  | .vpshufhw256Vex3 p r x b w reg rm imm => Sys2Proof.Machine.execVpshufhw256Vex3 p r x b w reg rm imm s
  | .vpshufhw128Evex p e w z aaa reg rm imm => Sys2Proof.Machine.execVpshufhw128Evex p e w z aaa reg rm imm s
  | .vpshufhw256Evex p e w z aaa reg rm imm => Sys2Proof.Machine.execVpshufhw256Evex p e w z aaa reg rm imm s
  | .vpshufhw512Evex p e w z aaa reg rm imm => Sys2Proof.Machine.execVpshufhw512Evex p e w z aaa reg rm imm s

end Sys2Proof.Machine
end

