-- ==== Sys2Proof/Machine/Step.lean ====
section
/-! DEFINITION. One step: fetch, decode, execute (spec/40_pshufhw.md R167), and the placing of one instruction from outside. -/

namespace Sys2Proof.Machine

/-- One step of the machine (R167, R226). -/
def step (s : State) : Host.Outcome State Fault Refusal :=
  match s.fetchDecode with
  | .run i => exec i s
  | .stop o => o

/-- `s` launched as R222 says (from reset no encoding can run, R221), with the table word's bytes where the next step fetches
them (assumption 6). -/
def State.withFetchWord (s : State) (nbits w : Nat) : State :=
  s.launch.storeCode .m64 (tableBytes nbits w) 0

end Sys2Proof.Machine
end

