-- ==== Sys2Proof/Machine/Intrinsics.lean ====
section
/-! DEFINITION. The compiler intrinsics of spec/30_encoding.md R129 in terms of the operation (spec/40_pshufhw.md R166): three
shapes at each of the three widths. A mask argument stands in place of `K[aaa]` and is read at `KL` bits (conflict C4). -/

namespace Sys2Proof.Machine

/-- `_mm_shufflehi_epi16`, `_mm256_shufflehi_epi16`, `_mm512_shufflehi_epi16`. -/
def shufflehiEpi16 (vl : VecLen) (a : Vec) (n : Byte) : Vec := shufHiVec vl a n

/-- `_mm_mask_shufflehi_epi16`, `_mm256_mask_shufflehi_epi16`, `_mm512_mask_shufflehi_epi16`. -/
def maskShufflehiEpi16 (vl : VecLen) (s : Vec) (k : BitVec 64) (a : Vec) (n : Byte) : Vec :=
  maskWords vl s (shufHiVec vl a n) k 1#3 false

/-- `_mm_maskz_shufflehi_epi16`, `_mm256_maskz_shufflehi_epi16`, `_mm512_maskz_shufflehi_epi16`. -/
def maskzShufflehiEpi16 (vl : VecLen) (k : BitVec 64) (a : Vec) (n : Byte) : Vec :=
  maskWords vl 0 (shufHiVec vl a n) k 1#3 true

end Sys2Proof.Machine
end

