-- ==== Sys2Proof/Safety.lean ====
section
/-! DEFINITION. The terms claims are stated in: when an encoding may execute (spec/70_reset_and_hazards.md R222), when its
source can be obtained and what it is (spec/40_pshufhw.md R143), what no instruction touches (R159), the invariant of the
state, and the free order of prefixes (spec/30_encoding.md R120). -/

namespace Sys2Proof.Machine

/-- The control-field premises of R222 for an encoding: the mode apart, its feature flags, `TS = 0`, and the enable state. -/
def State.ready (s : State) (f : Form) : Bool :=
  featurePresent f s.cfg.features && !s.cr0TS &&
  match f with
  | .leg => !s.cr0EM && s.cr4OSFXSR
  | .vex128 => s.cr4OSXSAVE && s.xcr0Avx
  | .vex256 => s.cr4OSXSAVE && s.xcr0Avx
  | .evex128 => s.cr4OSXSAVE && s.xcr0Avx && s.xcr0Avx512
  | .evex256 => s.cr4OSXSAVE && s.xcr0Avx && s.xcr0Avx512
  | .evex512 => s.cr4OSXSAVE && s.xcr0Avx && s.xcr0Avx512

/-- The destination register of an instruction. -/
def instrDest (i : Instr) (m : Mode) : Fin 32 := destNum m i.ext i.reg

/-- The place of an instruction's memory source, if its form is `fld`. -/
def instrPlace (i : Instr) (m : Mode) (fld : MemField) (s : State) : MemPlace :=
  memPlace i.form m i.prefixes i.ext fld i.length s

/-- A 16-byte boundary (R55). -/
def aligned16 (a : Addr) : Bool := a.extractLsb' 0 4 == 0#4

/-- The source can be obtained: a register always; a memory source when its address is legal, for the legacy form aligned,
and `Translate` answers with ordinary memory (R55, R61, R62). -/
def sourceOk (i : Instr) (m : Mode) (s : State) : Bool :=
  match i.rm with
  | .reg _ => true
  | .mem fld =>
    (i.form != .leg || aligned16 (instrPlace i m fld s).linear) &&
    (s.illegal m (instrPlace i m fld s).seg (instrPlace i m fld s).ea (instrPlace i m fld s).linear i.form.vl.bytes).isNone &&
    s.translate m (instrPlace i m fld s).linear i.form.vl.bytes == .ok .ordinary

/-- The source value, bits at and above `VL` zero (R143): a register's low `VL` bits, or `VL/8` bytes, little-endian. -/
def sourceValue (i : Instr) (m : Mode) (s : State) : Vec :=
  match i.rm with
  | .reg n => lowBits i.form.vl (s.readVec (srcNum m i.form i.ext n))
  | .mem fld =>
    ofPieces 8 i.form.vl.bytes (s.translatedByte m (instrPlace i m fld s).linear i.form.vl.bytes)

/-- `t` differs from `s` in nothing but the vector register `d` and `rip`: every other vector register, `K`, the general,
segment and control registers, the flags, `MXCSR`, `CR2`, the level and every byte of memory are as before (R22, R54, R159). -/
structure OnlyVecAndRip (d : Fin 32) (s t : State) : Prop where
  vec : ∀ n : Fin 32, n ≠ d → t.vec[n] = s.vec[n]
  rest : t = { s with vec := t.vec, rip := t.rip }
  bytes : ∀ a : Addr, t.readByte a = s.readByte a

/-- The invariant of the state: the constants fit together (R6), each register has `MAXVL` bits and 16 exist below 512 (R20),
memory is in its canonical form, `eip` has 32 bits in `M32` (R28), `XCR0[0]` is 1 (R38), `CR0` has 32 bits (R36). -/
structure State.Inv (s : State) : Prop where
  cfg : s.cfg.wf = true
  width : ∀ n : Fin 32, ∀ j : Nat, s.cfg.maxvl.bits ≤ j → (s.vec[n]).getLsbD j = false
  count : s.cfg.maxvl ≠ .v512 → ∀ n : Fin 32, 16 ≤ n.val → s.vec[n] = 0
  mem : Memory.wf s.mem = true
  rip32 : s.mode = some .m32 → s.rip.toNat < 2 ^ 32
  x87 : s.xcr0.getLsbD 0 = true
  cr0 : s.cr0.toNat < 2 ^ 32

/-! ### The order of prefixes -/

/-- The segment-override bytes (R83). -/
def isOverride (b : Byte) : Bool := [0x26, 0x2E, 0x36, 0x3E, 0x64, 0x65].contains b

/-- `pre` is, in some order, just the prefixes `q` says: its one override, its one `67h`, its one `F3h`, and `F0h` bytes if it has
LOCK (R83, R120). -/
def prefixOrder (pre : List Byte) (q : Seen) : Bool :=
  pre.all (fun b => isOverride b || [0x67, 0xF3, 0xF0].contains b) &&
  pre.filter isOverride == q.seg.toList.map segByte &&
  pre.count 0x67 == q.a67.toNat && pre.count 0xF3 == q.f3.toNat && pre.contains 0xF0 == q.lock

/-- The prefixes of an instruction of the admitted set: its own, and format LEG's `F3h` (R120). -/
def instrPrefixes (i : Instr) : Seen := ⟨i.prefixes.seg, i.prefixes.a67, i.form == .leg, false⟩

end Sys2Proof.Machine
end

