-- ==== Sys2Proof/Certificates/Slice0/Obligations.lean ====
section
/-! DEFINITION. The statements for the provers, from the spec's numbered rules: encoding, the lane and mask functions, the result
of every row of the opcode table, frames, exceptions, addresses, reset, and the invariant every step keeps. -/

open Sys2Proof Sys2Proof.Machine

/-! ### Encoding (spec/30_encoding.md) -/

/-- For every mode and every instruction of the admitted set (R120), with every operand at every value its encoding has, the
decoder reads the encoder's bytes as that instruction, whatever bytes follow, and so it does with the optional prefixes (and
format LEG's `F3h`) in any order. -/
def Obligations.DecodeOfEncode : Prop :=
  ∀ (m : Mode) (i : Instr) (rest : List Byte), i.wf m = true →
    decode m (encode i ++ rest) = .instr i rest ∧
    ∀ pre, prefixOrder pre (instrPrefixes i) = true → decode m (pre ++ encodeBody i ++ rest) = .instr i rest

/-- Whatever bytes it is given, the decoder answers an instruction only of the admitted set, and only where the bytes it takes are
one of the byte sequences R120 admits for it: its prefixes in some order, then the rest of its encoding. -/
def Obligations.DecodeAnswersAdmittedOnly : Prop :=
  ∀ (m : Mode) (bs rest : List Byte) (i : Instr), decode m bs = .instr i rest →
    i.wf m = true ∧
    ∃ pre, prefixOrder pre (instrPrefixes i) = true ∧ bs = pre ++ encodeBody i ++ rest

/-- The decoder takes exactly `len` bytes (R112), and `len` is at least 5, 5, 6 or 7 by format and never above 15 (R112, R113). -/
def Obligations.DecodeTakesTheLength : Prop :=
  ∀ (m : Mode) (bs rest : List Byte) (i : Instr), decode m bs = .instr i rest →
    (∃ taken : List Byte, bs = taken ++ rest ∧ taken.length = i.length) ∧ i.length ≤ 15 ∧
    match i with
    | .pshufhw .. => 5 ≤ i.length
    | .vpshufhw128Vex2 .. => 5 ≤ i.length
    | .vpshufhw256Vex2 .. => 5 ≤ i.length
    | .vpshufhw128Vex3 .. => 6 ≤ i.length
    | .vpshufhw256Vex3 .. => 6 ≤ i.length
    | .vpshufhw128Evex .. => 7 ≤ i.length
    | .vpshufhw256Evex .. => 7 ≤ i.length
    | .vpshufhw512Evex .. => 7 ≤ i.length

/-- The words of the spec's own examples (R150 to R155, spec/95_test_vectors.md) decode to the instructions they stand for. -/
def Obligations.SampleWordsDecode : Prop :=
  decode .m64 [0xF3, 0x0F, 0x70, 0xCA, 0x1B] = .instr (.pshufhw ⟨none, false⟩ none 1 (.reg 2) 0x1B) [] ∧
  decode .m64 [0xC5, 0xFA, 0x70, 0xCA, 0x1B] = .instr (.vpshufhw128Vex2 ⟨none, false⟩ false 1 (.reg 2) 0x1B) [] ∧
  decode .m64 [0xC4, 0x41, 0x7E, 0x70, 0xCA, 0x1B] =
    .instr (.vpshufhw256Vex3 ⟨none, false⟩ true false true false 1 (.reg 2) 0x1B) [] ∧
  decode .m64 [0x62, 0xF1, 0x7E, 0xC9, 0x70, 0x48, 0x01, 0x1B] =
    .instr (.vpshufhw512Evex ⟨none, false⟩ ⟨false, false, false, false⟩ false true 1 1 (.mem (.base 0 (.d8 1))) 0x1B) []

/-- A VEX prefix of this instruction whose stored `vvvv` is not `1111b` is `#UD`, whatever the ignored and extension bits
hold and whatever prefixes stand before it, once all its bytes are there (R181). In `M32` the prefix is one only when bits 7:6
of the next byte are `11b` (R95). That `#UD` waits for the instruction's last byte is the model's inference (assumption 19). -/
def Obligations.VexVvvvIsUd : Prop :=
  ∀ (m : Mode) (pre : List Byte) (q : Seen) (v1 v2 : Byte) (tail : List Byte), prefixOrder pre q = true →
    (takeTail tail).isSome = true → v2.extractLsb' 0 2 = 2#2 → v2.extractLsb' 3 4 ≠ 15#4 →
    ((m = .m64 ∨ v2.extractLsb' 6 2 = 3#2) → decode m (pre ++ 0xC5 :: v2 :: 0x70 :: tail) = .ud) ∧
    ((m = .m64 ∨ v1.extractLsb' 6 2 = 3#2) → v1.extractLsb' 0 5 = 1#5 →
      decode m (pre ++ 0xC4 :: v1 :: v2 :: 0x70 :: tail) = .ud)

/-- An EVEX prefix of this instruction with `vvvv` not `1111b`, a reserved bit of `P0` set, `P1[2]` clear, `L'L = 11b`, `b` set
or stored `V'` clear is `#UD`, whatever its other fields hold and whatever prefixes stand before it, once all its bytes are there
(R97, R181; of R183 all but `z` with no mask, which conflict C13 has refused). That `#UD` waits for the last byte, and that
these outrank that refusal and those of `M32`, are the model's inferences (assumptions 19 and 20). -/
def Obligations.EvexFieldIsUd : Prop :=
  ∀ (m : Mode) (pre : List Byte) (q : Seen) (p0 p1 p2 : Byte) (tail : List Byte), prefixOrder pre q = true →
    (takeTail tail).isSome = true →
    (m = .m64 ∨ p0.extractLsb' 6 2 = 3#2) → p0.extractLsb' 0 2 = 1#2 → p1.extractLsb' 0 2 = 2#2 →
    (p1.extractLsb' 3 4 ≠ 15#4 ∨ p0.extractLsb' 2 2 ≠ 0#2 ∨ p1.getLsbD 2 = false ∨ p2.extractLsb' 5 2 = 3#2 ∨
      p2.getLsbD 4 = true ∨ p2.getLsbD 3 = false) →
    decode m (pre ++ 0x62 :: p0 :: p1 :: p2 :: 0x70 :: tail) = .ud

/-- A LOCK prefix anywhere among the prefixes of any of the six encodings is `#UD`, and so is `F3h` anywhere before a VEX or EVEX
prefix, and in `M64` a REX byte directly before a VEX or EVEX prefix, after all other prefixes (R192; R192's `66h` and `F2h` are
refused by R121 and conflict C13, see `Prefix66OrF2IsRefused`; a REX byte that another prefix follows is refused, assumption 24;
that `F3h` and LOCK are judged only with the whole instruction read is the model's inference, assumptions 19 and 23). -/
def Obligations.LockAndMandatoryPrefixesAreUd : Prop :=
  ∀ (m : Mode) (i : Instr) (pre rest : List Byte) (q : Seen), i.wf m = true → prefixOrder pre q = true →
    (q.lock = true → (i.form = .leg → q.f3 = true) → decode m (pre ++ encodeBody i ++ rest) = .ud) ∧
    (i.form ≠ .leg → q.f3 = true → decode m (pre ++ encodeBody i ++ rest) = .ud) ∧
    (i.form ≠ .leg → ∀ r : Rex, decode .m64 (pre ++ rexByte r :: encodeBody i ++ rest) = .ud)

/-- A `66h` or `F2h` is refused wherever it stands among the prefixes: after any of an override, `67h`, `F3h` and LOCK in any
order, none repeated but LOCK (R83, R121, conflict C13). -/
def Obligations.Prefix66OrF2IsRefused : Prop :=
  ∀ (m : Mode) (pre : List Byte) (q : Seen) (b : Byte) (rest : List Byte), prefixOrder pre q = true →
    b = 0x66 ∨ b = 0xF2 → decode m (pre ++ b :: rest) = .reject .prefix66OrF2

/-- The register numbers of R100 to R102: `R:reg` and `B:rm` in LEG and VEX, `R':R:reg` and `X:B:rm` in EVEX; in `M32` the
three-bit fields alone (R23, R100). That `M32` drops the extension bits of a VEX or EVEX term, which the decoder never answers
there, is the model's inference (assumption 26). -/
def Obligations.RegisterNumbers : Prop :=
  ∀ (i : Instr) (n : BitVec 3),
    (instrDest i .m32).val = i.reg.toNat ∧ (srcNum .m32 i.form i.ext n).val = n.toNat ∧
    (i.form.isEvex = false →
      (instrDest i .m64).val = 8 * i.ext.r.toNat + i.reg.toNat ∧
      (srcNum .m64 i.form i.ext n).val = 8 * i.ext.b.toNat + n.toNat) ∧
    (i.form.isEvex = true →
      (instrDest i .m64).val = 16 * i.ext.rHi.toNat + 8 * i.ext.r.toNat + i.reg.toNat ∧
      (srcNum .m64 i.form i.ext n).val = 16 * i.ext.x.toNat + 8 * i.ext.b.toNat + n.toNat)

/-- `VEX2` and `VEX3` with the same field values are the same instruction (R93): whenever both complete and obtain the same
source value, every vector register ends the same. -/
def Obligations.Vex2AndVex3Agree : Prop :=
  ∀ (p : Prefixes) (r w : Bool) (reg : BitVec 3) (rm : RmField) (imm : Byte) (s t t' : State) (m : Mode),
    s.mode = some m →
    (sourceValue (.vpshufhw128Vex2 p r reg rm imm) m s = sourceValue (.vpshufhw128Vex3 p r false false w reg rm imm) m s →
      exec (.vpshufhw128Vex2 p r reg rm imm) s = .next t →
      exec (.vpshufhw128Vex3 p r false false w reg rm imm) s = .next t' → t'.vec = t.vec) ∧
    (sourceValue (.vpshufhw256Vex2 p r reg rm imm) m s = sourceValue (.vpshufhw256Vex3 p r false false w reg rm imm) m s →
      exec (.vpshufhw256Vex2 p r reg rm imm) s = .next t →
      exec (.vpshufhw256Vex3 p r false false w reg rm imm) s = .next t' → t'.vec = t.vec)

/-! ### The lane and mask functions (spec/40_pshufhw.md) -/

/-- R140: the low quadword of the result is the source's, and for `n = 0..3` word `4 + n` is source word `4 + imm[2n+1:2n]`. -/
def Obligations.LaneFunction : Prop :=
  ∀ (s : Lane) (imm : Byte),
    (shufHi s imm).extractLsb' 0 64 = s.extractLsb' 0 64 ∧
    ∀ n, n < 4 → (shufHi s imm).extractLsb' (64 + 16 * n) 16 =
      s.extractLsb' (64 + 16 * (imm.extractLsb' (2 * n) 2).toNat) 16

/-- R142: lane `L` of the vector function is the lane function of lane `L` of the source, for every lane below `VL/128`. -/
def Obligations.VectorFunctionLanes : Prop :=
  ∀ (vl : VecLen) (s : Vec) (imm : Byte) (l : Nat), l < vl.bits / 128 →
    (shufHiVec vl s imm).extractLsb' (128 * l) 128 = shufHi (s.extractLsb' (128 * l) 128) imm

/-- R141: the page's own formula. In lane `l`, word `4 + n` is the slice `[128l+79:128l+64]` of the whole source shifted right
by `imm[2n+1:2n] * 16`, and the low quadword is copied. -/
def Obligations.PageFormula : Prop :=
  ∀ (vl : VecLen) (s : Vec) (imm : Byte) (l : Nat), l < vl.bits / 128 →
    (shufHiVec vl s imm).extractLsb' (128 * l) 64 = s.extractLsb' (128 * l) 64 ∧
    ∀ n, n < 4 → (shufHiVec vl s imm).extractLsb' (128 * l + 64 + 16 * n) 16 =
      (s >>> ((imm.extractLsb' (2 * n) 2).toNat * 16)).extractLsb' (128 * l + 64) 16

/-- R163: `E4h` is the identity, `1Bh`, `4Eh` and `B1h` are their own inverses, `93h` and `39h` undo each other. -/
def Obligations.NotableImmediates : Prop :=
  ∀ s : Lane, shufHi s 0xE4 = s ∧ shufHi (shufHi s 0x1B) 0x1B = s ∧ shufHi (shufHi s 0x4E) 0x4E = s ∧
    shufHi (shufHi s 0xB1) 0xB1 = s ∧ shufHi (shufHi s 0x93) 0x39 = s ∧ shufHi (shufHi s 0x39) 0x93 = s

/-- R156: `MaskWords`, word by word, for every `j = 0 .. KL-1`. -/
def Obligations.MaskWordsPerWord : Prop :=
  ∀ (vl : VecLen) (old t : Vec) (mask : BitVec 64) (aaa : BitVec 3) (z : Bool) (j : Nat), j < vl.words →
    (maskWords vl old t mask aaa z).extractLsb' (16 * j) 16 =
      if aaa = 0#3 ∨ mask.getLsbD j = true then t.extractLsb' (16 * j) 16
      else if z = false then old.extractLsb' (16 * j) 16
      else 0#16

/-- R164, on the mask function: with bits `KL-1:0` all zero, merging keeps the old low `VL` bits and zeroing gives zero; with all
of them one the result is as with no mask; bits `63:KL` never matter. -/
def Obligations.MaskCorners : Prop :=
  ∀ (vl : VecLen) (old t : Vec) (mask mask' : BitVec 64) (aaa : BitVec 3) (z : Bool), aaa ≠ 0#3 →
    ((∀ j, j < vl.words → mask.getLsbD j = false) →
      maskWords vl old t mask aaa false = lowBits vl old ∧ maskWords vl old t mask aaa true = 0) ∧
    ((∀ j, j < vl.words → mask.getLsbD j = true) →
      maskWords vl old t mask aaa z = maskWords vl old t mask 0#3 z ∧ maskWords vl old t mask aaa z = lowBits vl t) ∧
    ((∀ j, j < vl.words → mask.getLsbD j = mask'.getLsbD j) →
      maskWords vl old t mask aaa z = maskWords vl old t mask' aaa z)

/-! ### What each row does: it completes, with this result and this frame -/

/-- R150, `PSHUFHW` (LEG): ready (R222) and with an obtainable source, register or memory, it completes; bits `[127:0]` of the
destination are the lane function of the source, bits `[MAXVL-1:128]` are unchanged, `rip` advances, nothing else changes. -/
def Obligations.PshufhwResult : Prop :=
  ∀ (p : Prefixes) (rex : Option Rex) (reg : BitVec 3) (rm : RmField) (imm : Byte) (s : State) (m : Mode) (d : Fin 32),
    s.mode = some m → s.ready .leg = true → sourceOk (.pshufhw p rex reg rm imm) m s = true →
    d = instrDest (.pshufhw p rex reg rm imm) m →
    ∃ t, exec (.pshufhw p rex reg rm imm) s = .next t ∧
      (t.vec[d]).extractLsb' 0 128 =
        shufHi ((sourceValue (.pshufhw p rex reg rm imm) m s).extractLsb' 0 128) imm ∧
      (∀ j, 128 ≤ j → j < s.cfg.maxvl.bits → (t.vec[d]).getLsbD j = (s.vec[d]).getLsbD j) ∧
      t.rip = s.nextRip m (Instr.pshufhw p rex reg rm imm).length ∧ OnlyVecAndRip d s t

/-- R151, `VPSHUFHW` VEX.128, the rows VEX2 and VEX3: as `PSHUFHW` but every bit above 127 is zeroed, and a memory source
needs no alignment. -/
def Obligations.Vex128Result : Prop :=
  ∀ (i : Instr) (s : State) (m : Mode) (d : Fin 32), i.form = .vex128 →
    s.mode = some m → s.ready .vex128 = true → sourceOk i m s = true → d = instrDest i m →
    ∃ t, exec i s = .next t ∧
      (t.vec[d]).extractLsb' 0 128 = shufHi ((sourceValue i m s).extractLsb' 0 128) i.imm ∧
      (∀ j, 128 ≤ j → (t.vec[d]).getLsbD j = false) ∧
      t.rip = s.nextRip m i.length ∧ OnlyVecAndRip d s t

/-- R152, `VPSHUFHW` VEX.256, the rows VEX2 and VEX3: both lanes, every bit above 255 zeroed. `cfg.wf` holds `MAXVL ≥ 256`
(R6; for AVX2 the model's inference, assumption 3). -/
def Obligations.Vex256Result : Prop :=
  ∀ (i : Instr) (s : State) (m : Mode) (d : Fin 32), i.form = .vex256 → s.cfg.wf = true →
    s.mode = some m → s.ready .vex256 = true → sourceOk i m s = true → d = instrDest i m →
    ∃ t, exec i s = .next t ∧
      (t.vec[d]).extractLsb' 0 128 = shufHi ((sourceValue i m s).extractLsb' 0 128) i.imm ∧
      (t.vec[d]).extractLsb' 128 128 = shufHi ((sourceValue i m s).extractLsb' 128 128) i.imm ∧
      (∀ j, 256 ≤ j → (t.vec[d]).getLsbD j = false) ∧
      t.rip = s.nextRip m i.length ∧ OnlyVecAndRip d s t

/-- R153, `VPSHUFHW` EVEX.128: each of the 8 low words is the shuffled word where there is no mask or its mask bit is 1, else the
old word (`z = 0`) or zero (`z = 1`); every bit above 127 is zeroed whatever the mask. -/
def Obligations.Evex128Result : Prop :=
  ∀ (p : Prefixes) (e : Ext) (w z : Bool) (aaa reg : BitVec 3) (rm : RmField) (imm : Byte) (s : State) (m : Mode)
    (d : Fin 32), s.cfg.wf = true → s.mode = some m → s.ready .evex128 = true →
    sourceOk (.vpshufhw128Evex p e w z aaa reg rm imm) m s = true →
    d = instrDest (.vpshufhw128Evex p e w z aaa reg rm imm) m →
    ∃ t, exec (.vpshufhw128Evex p e w z aaa reg rm imm) s = .next t ∧
      (∀ j, j < 8 → (t.vec[d]).extractLsb' (16 * j) 16 =
        if aaa = 0#3 ∨ (s.k[aaa.toFin]).getLsbD j = true then
          (shufHiVec .v128 (sourceValue (.vpshufhw128Evex p e w z aaa reg rm imm) m s) imm).extractLsb' (16 * j) 16
        else if z = false then (s.vec[d]).extractLsb' (16 * j) 16
        else 0#16) ∧
      (∀ j, 128 ≤ j → (t.vec[d]).getLsbD j = false) ∧
      t.rip = s.nextRip m (Instr.vpshufhw128Evex p e w z aaa reg rm imm).length ∧ OnlyVecAndRip d s t

/-- R154, `VPSHUFHW` EVEX.256: the same on 16 words; every bit above 255 is zeroed. -/
def Obligations.Evex256Result : Prop :=
  ∀ (p : Prefixes) (e : Ext) (w z : Bool) (aaa reg : BitVec 3) (rm : RmField) (imm : Byte) (s : State) (m : Mode)
    (d : Fin 32), s.cfg.wf = true → s.mode = some m → s.ready .evex256 = true →
    sourceOk (.vpshufhw256Evex p e w z aaa reg rm imm) m s = true →
    d = instrDest (.vpshufhw256Evex p e w z aaa reg rm imm) m →
    ∃ t, exec (.vpshufhw256Evex p e w z aaa reg rm imm) s = .next t ∧
      (∀ j, j < 16 → (t.vec[d]).extractLsb' (16 * j) 16 =
        if aaa = 0#3 ∨ (s.k[aaa.toFin]).getLsbD j = true then
          (shufHiVec .v256 (sourceValue (.vpshufhw256Evex p e w z aaa reg rm imm) m s) imm).extractLsb' (16 * j) 16
        else if z = false then (s.vec[d]).extractLsb' (16 * j) 16
        else 0#16) ∧
      (∀ j, 256 ≤ j → (t.vec[d]).getLsbD j = false) ∧
      t.rip = s.nextRip m (Instr.vpshufhw256Evex p e w z aaa reg rm imm).length ∧ OnlyVecAndRip d s t

/-- R155, `VPSHUFHW` EVEX.512: the same on all 32 words. -/
def Obligations.Evex512Result : Prop :=
  ∀ (p : Prefixes) (e : Ext) (w z : Bool) (aaa reg : BitVec 3) (rm : RmField) (imm : Byte) (s : State) (m : Mode)
    (d : Fin 32), s.cfg.wf = true → s.mode = some m → s.ready .evex512 = true →
    sourceOk (.vpshufhw512Evex p e w z aaa reg rm imm) m s = true →
    d = instrDest (.vpshufhw512Evex p e w z aaa reg rm imm) m →
    ∃ t, exec (.vpshufhw512Evex p e w z aaa reg rm imm) s = .next t ∧
      (∀ j, j < 32 → (t.vec[d]).extractLsb' (16 * j) 16 =
        if aaa = 0#3 ∨ (s.k[aaa.toFin]).getLsbD j = true then
          (shufHiVec .v512 (sourceValue (.vpshufhw512Evex p e w z aaa reg rm imm) m s) imm).extractLsb' (16 * j) 16
        else if z = false then (s.vec[d]).extractLsb' (16 * j) 16
        else 0#16) ∧
      t.rip = s.nextRip m (Instr.vpshufhw512Evex p e w z aaa reg rm imm).length ∧ OnlyVecAndRip d s t

/-- R166: an EVEX row under a mask `K[aaa]`, `aaa ≠ 0`, leaves in its destination what the `mask` intrinsic (`z = 0`) or the
`maskz` intrinsic (`z = 1`) of its width answers for the old destination, the mask value and the source; with no mask, what
the plain intrinsic answers. -/
def Obligations.IntrinsicsAgree : Prop :=
  ∀ (i : Instr) (s t : State) (m : Mode) (aaa : BitVec 3) (z : Bool), s.cfg.wf = true → s.mode = some m →
    i.mask = some (aaa, z) → exec i s = .next t → sourceOk i m s = true →
    t.vec[instrDest i m] =
      if aaa = 0#3 then shufflehiEpi16 i.form.vl (sourceValue i m s) i.imm
      else if z = false then
        maskShufflehiEpi16 i.form.vl (s.vec[instrDest i m]) (s.k[aaa.toFin]) (sourceValue i m s) i.imm
      else maskzShufflehiEpi16 i.form.vl (s.k[aaa.toFin]) (sourceValue i m s) i.imm

/-- R158, its last sentence: with no mask and the same destination, immediate and source value, the VEX and the EVEX encoding of
one length have the same effect on the vector registers. -/
def Obligations.VexAndEvexAgree : Prop :=
  ∀ (i j : Instr) (s t t' : State) (m : Mode) (z : Bool), s.mode = some m →
    (i.form = .vex128 ∧ j.form = .evex128 ∨ i.form = .vex256 ∧ j.form = .evex256) → j.mask = some (0#3, z) →
    instrDest i m = instrDest j m → i.imm = j.imm → sourceValue i m s = sourceValue j m s →
    exec i s = .next t → exec j s = .next t' → t'.vec = t.vec

/-- The `W` bit is ignored (R81, R84, R93, R96): REX.W, VEX.W and EVEX.W change no outcome. -/
def Obligations.WIsIgnored : Prop :=
  ∀ (p : Prefixes) (e : Ext) (w w' r x b z : Bool) (aaa reg : BitVec 3) (rm : RmField) (imm : Byte) (s : State),
    exec (.pshufhw p (some ⟨w, r, x, b⟩) reg rm imm) s = exec (.pshufhw p (some ⟨w', r, x, b⟩) reg rm imm) s ∧
    exec (.vpshufhw128Vex3 p r x b w reg rm imm) s = exec (.vpshufhw128Vex3 p r x b w' reg rm imm) s ∧
    exec (.vpshufhw256Vex3 p r x b w reg rm imm) s = exec (.vpshufhw256Vex3 p r x b w' reg rm imm) s ∧
    exec (.vpshufhw128Evex p e w z aaa reg rm imm) s = exec (.vpshufhw128Evex p e w' z aaa reg rm imm) s ∧
    exec (.vpshufhw256Evex p e w z aaa reg rm imm) s = exec (.vpshufhw256Evex p e w' z aaa reg rm imm) s ∧
    exec (.vpshufhw512Evex p e w z aaa reg rm imm) s = exec (.vpshufhw512Evex p e w' z aaa reg rm imm) s

/-! ### Frames and whole-machine rules -/

/-- The frame of every instruction (R22, R29, R54, R159): it changes no vector register but its destination, no opmask, general,
segment or control register, no flag, not `MXCSR`, and not one byte of memory (no form stores). -/
def Obligations.FrameOfEveryInstruction : Prop :=
  ∀ (i : Instr) (s t : State) (m : Mode), s.mode = some m → exec i s = .next t → OnlyVecAndRip (instrDest i m) s t

/-- R160: a completed instruction sets `rip` to `rip + len`, in `M32` modulo 2^32 (R28), and has no other effect on it. -/
def Obligations.RipAdvances : Prop :=
  ∀ (i : Instr) (s t : State) (m : Mode), s.mode = some m → exec i s = .next t →
    (m = .m64 → t.rip.toNat = (s.rip.toNat + i.length) % 2 ^ 64) ∧
    (m = .m32 → t.rip.toNat = (s.rip.toNat + i.length) % 2 ^ 32)

/-- R24: the legacy and VEX encodings cannot name `V[16..31]`, and leave those registers unchanged. -/
def Obligations.LegacyAndVexReachSixteen : Prop :=
  ∀ (i : Instr) (m : Mode), i.form.isEvex = false →
    (instrDest i m).val < 16 ∧ (∀ n, (srcNum m i.form i.ext n).val < 16) ∧
    ∀ (s t : State) (n : Fin 32), exec i s = .next t → 16 ≤ n.val → t.vec[n] = s.vec[n]

/-- A step that goes on changes only one vector register and `rip`, whatever instruction it ran. -/
def Obligations.StepChangesOneRegister : Prop :=
  ∀ s t : State, step s = .next t → ∃ d : Fin 32, OnlyVecAndRip d s t ∧ s.rip ≠ t.rip

/-- The invariant of the state, kept by every step from every state that meets it (its bounds on the register file are the
model's form of R20, assumptions 2 and 3). -/
def Obligations.StepKeepsInv : Prop :=
  ∀ s t : State, s.Inv → step s = .next t → t.Inv

/-- The invariant holds right after reset. -/
def Obligations.ResetMeetsInv : Prop := State.reset.Inv

/-- R26, R164: only bits `KL-1:0` of the named opmask register matter. -/
def Obligations.HighMaskBitsDoNotMatter : Prop :=
  ∀ (i : Instr) (s t : State) (k' : Vector (BitVec 64) 8) (aaa : BitVec 3) (z : Bool), i.mask = some (aaa, z) →
    (∀ j, j < i.form.vl.words → (k'[aaa.toFin]).getLsbD j = (s.k[aaa.toFin]).getLsbD j) →
    exec i s = .next t → exec i { s with k := k' } = .next { t with k := k' }

/-- R59, as far as faults go: whatever the masks hold, an EVEX row raises the same faults, is refused alike, and obtains the same
source value. -/
def Obligations.MaskDoesNotNarrowTheRead : Prop :=
  ∀ (i : Instr) (s : State) (k' : Vector (BitVec 64) 8), i.form.isEvex = true →
    (∀ f, exec i s = .fault f ↔ exec i { s with k := k' } = .fault f) ∧
    (∀ r, exec i s = .refused r ↔ exec i { s with k := k' } = .refused r) ∧
    (∀ m, sourceValue i m { s with k := k' } = sourceValue i m s)

/-- R210: with a register source the level does not enter: the same result, and the same fault, at every level. -/
def Obligations.NotPrivileged : Prop :=
  ∀ (i : Instr) (n : BitVec 3) (s t : State) (c : BitVec 2), i.rm = .reg n →
    (exec i s = .next t → exec i { s with cpl := c } = .next { t with cpl := c }) ∧
    (∀ f, exec i s = .fault f → exec i { s with cpl := c } = .fault f)

/-! ### A step -/

/-- R167, R226: when the bytes fetched at `rip` decode to an instruction, the step is that instruction's meaning at that state. -/
def Obligations.StepRunsTheDecoded : Prop :=
  ∀ (s : State) (m : Mode) (i : Instr) (rest : List Byte), s.debugArmed = false → s.mode = some m →
    decode m (s.fetch m).1 = .instr i rest → step s = exec i s

/-- When the encoding of a well-formed instruction lies in memory at `rip`, each byte fetchable, the step is that
instruction's meaning at that state (R167). That the bytes fetched are memory's at the linear address, under a platform's
`Translate` too, is the model's choice (assumption 13). -/
def Obligations.StepRunsTheEncoded : Prop :=
  ∀ (s : State) (m : Mode) (i : Instr), s.debugArmed = false → s.mode = some m → i.wf m = true →
    (∀ k, k < i.length → s.fetchStop m k = none ∧ some (s.readByte (s.fetchAddr m k)) = (encode i)[k]?) →
    step s = exec i s

/-- When the bytes at `rip` are an encoding that raises `#UD`, the step raises it: vector 6, nothing recorded, the address of the
first byte saved (R180, R198). -/
def Obligations.StepRaisesUd : Prop :=
  ∀ (s : State) (m : Mode), s.debugArmed = false → s.mode = some m → decode m (s.fetch m).1 = .ud →
    step s = .fault (.exception ⟨6, none, none, s.cr2, s.rip⟩)

/-- The refusals and the fault of the fetch at the first byte (R8, R28, R196, R214): a debug event armed; a mode other than `M64` and
`M32`; `rip` not canonical in `M64`, beyond the code segment limit in `M32`; the first byte on a page fault, which records vector
14, the byte's address, which `CR2` receives, and the code; the first byte a device's. What the fetch meets, by the flat instance's
map or by a platform's paging, and that its code is a free value, are the model's choices (assumptions 10 and 13). -/
def Obligations.StepStopsBeforeDecode : Prop :=
  ∀ s : State,
    (s.debugArmed = true → step s = .refused .debugArmed) ∧
    (s.debugArmed = false →
      (s.mode = none → step s = .refused .unsupportedMode) ∧
      (s.mode = some .m64 → canonical s.cfg.linear s.rip = false → step s = .refused .instructionPointer) ∧
      (s.mode = some .m32 → s.cs.limit.toNat < s.rip.toNat % 2 ^ 32 → step s = .refused .instructionPointer) ∧
      ∀ a : Addr,
        (s.mode = some .m64 ∧ canonical s.cfg.linear s.rip = true ∧ a = s.rip ∨
          s.mode = some .m32 ∧ s.rip.toNat % 2 ^ 32 ≤ s.cs.limit.toNat ∧
            a.toNat = (s.cs.base.toNat + s.rip.toNat % 2 ^ 32) % 2 ^ 32) →
        (∀ map, s.translation = .flat map →
          (regionAt map a = some .absent →
            ∃ c, step s = .fault (.fetchPageFault ⟨14, some c, some a, a, s.rip⟩)) ∧
          (regionAt map a = some .device → step s = .refused .deviceMemory)) ∧
        (∀ paging, s.translation = .platform paging → s.translateFetch a = Config.fetchVerdict paging s.mem a s.cpl) ∧
        (∀ c, s.translateFetch a = .pf c → step s = .fault (.fetchPageFault ⟨14, some c, some a, a, s.rip⟩)) ∧
        (s.translateFetch a = .device → step s = .refused .deviceMemory))

/-! ### Exceptions (spec/60_exceptions.md) -/

/-- R184: an encoding whose feature is absent raises `#UD`: LEG needs SSE2, VEX.128 AVX, VEX.256 AVX2, EVEX.128 and EVEX.256
AVX512VL and AVX512BW, EVEX.512 AVX512BW. -/
def Obligations.AbsentFeatureIsUd : Prop :=
  ∀ (i : Instr) (s : State) (m : Mode), s.mode = some m →
    (i.form = .leg ∧ s.cfg.features.sse2 = false ∨ i.form = .vex128 ∧ s.cfg.features.avx = false ∨
      i.form = .vex256 ∧ s.cfg.features.avx2 = false ∨
      (i.form = .evex128 ∨ i.form = .evex256) ∧
        (s.cfg.features.avx512vl = false ∨ s.cfg.features.avx512bw = false) ∨
      i.form = .evex512 ∧ s.cfg.features.avx512bw = false) →
    exec i s = .fault (.exception ⟨6, none, none, s.cr2, s.rip⟩)

/-- R185, R187, R189: the enable state. LEG: `CR0.EM = 1` or `CR4.OSFXSR = 0`. VEX: `CR4.OSXSAVE = 0` or `XCR0[2:1] ≠ 11b`. EVEX:
those, or `XCR0[7:5] ≠ 111b`. `CR0.EM` and `CR4.OSFXSR` are not tested for VEX and EVEX. -/
def Obligations.DisabledStateIsUd : Prop :=
  ∀ (i : Instr) (s : State) (m : Mode), s.mode = some m →
    ((i.form = .leg ∧ (s.cr0.getLsbD 2 = true ∨ s.cr4.getLsbD 9 = false) ∨
      i.form ≠ .leg ∧ (s.cr4.getLsbD 18 = false ∨ s.xcr0.extractLsb' 1 2 ≠ 0b11#2) ∨
      i.form.isEvex = true ∧ s.xcr0.extractLsb' 5 3 ≠ 0b111#3) →
      exec i s = .fault (.exception ⟨6, none, none, s.cr2, s.rip⟩)) ∧
    (i.form ≠ .leg → ∀ c0 c4 : BitVec 64, (∀ j, j ≠ 2 → c0.getLsbD j = s.cr0.getLsbD j) →
      (∀ j, j ≠ 9 → c4.getLsbD j = s.cr4.getLsbD j) →
      ({ s with cr0 := c0, cr4 := c4 } : State).formFault i.form = s.formFault i.form)

/-- R193: `CR0.TS = 1` raises `#NM`, every encoding, once all `#UD` tests have passed; vector 7, nothing recorded. -/
def Obligations.TaskSwitchedIsNm : Prop :=
  ∀ (i : Instr) (s : State) (m : Mode), s.mode = some m → featurePresent i.form s.cfg.features = true →
    s.osEnabled i.form = true → s.cr0.getLsbD 3 = true →
    exec i s = .fault (.exception ⟨7, none, none, s.cr2, s.rip⟩)

/-- R199, items 3 to 5: `#NM` is raised only when no `#UD` condition of the state holds, and a memory-source fault only when
the encoding is ready and its source is memory: a register source raises `#UD` or `#NM` alone. -/
def Obligations.FaultPriority : Prop :=
  ∀ (i : Instr) (s : State) (r : ExceptionRecord), exec i s = .fault (.exception r) →
    (r.vector = 7 → featurePresent i.form s.cfg.features = true ∧ s.osEnabled i.form = true) ∧
    (r.vector ≠ 6 → r.vector ≠ 7 → s.ready i.form = true ∧ ∃ fld, i.rm = .mem fld)

/-- R180, R198: the five exceptions and what each records. `#UD` and `#NM`: nothing. `#SS(0)`, `#GP(0)`: error code 0. `#PF`: an
error code with `W/R` and `I/D` clear and `U/S` set exactly at level 3, and the faulting address, which `CR2` receives.
Always the first byte's address is saved, and `CR2` is otherwise as before. That `Translate`'s code is corrected in
those three bits is the model's inference (assumption 11). -/
def Obligations.ExceptionRecords : Prop :=
  ∀ (i : Instr) (s : State) (r : ExceptionRecord), exec i s = .fault (.exception r) →
    r.savedRip = s.rip ∧
    ((r.vector = 6 ∨ r.vector = 7) ∧ r.errorCode = none ∧ r.address = none ∧ r.cr2 = s.cr2 ∨
     (r.vector = 12 ∨ r.vector = 13) ∧ r.errorCode = some 0 ∧ r.address = none ∧ r.cr2 = s.cr2 ∨
     r.vector = 14 ∧ r.address = some r.cr2 ∧
       ∃ c : BitVec 32, r.errorCode = some c ∧ c.getLsbD 1 = false ∧ c.getLsbD 4 = false ∧
         (c.getLsbD 2 = true ↔ s.cpl = 3#2))

/-- R197: no encoding raises `#AC` (vector 17), and `CR0.AM` and `EFLAGS.AC` change no outcome. -/
def Obligations.NoAlignmentCheck : Prop :=
  ∀ (i : Instr) (s t : State),
    (∀ r, exec i s = .fault (.exception r) → r.vector ≠ 17) ∧
    (∀ c f : BitVec 64, (∀ j, j ≠ 18 → c.getLsbD j = s.cr0.getLsbD j) → (∀ j, j ≠ 18 → f.getLsbD j = s.rflags.getLsbD j) →
      (exec i s = .next t → exec i { s with cr0 := c, rflags := f } = .next { t with cr0 := c, rflags := f }) ∧
      (∀ φ, exec i s = .fault φ → exec i { s with cr0 := c, rflags := f } = .fault φ) ∧
      (∀ ρ, exec i s = .refused ρ → exec i { s with cr0 := c, rflags := f } = .refused ρ))

/-- R55, R63: a legacy memory source off a 16-byte boundary raises `#GP(0)`; only where the address is also illegal in the `SS`
segment is `#SS(0)` admitted instead (the order is open, decision D12). -/
def Obligations.LegacyMisalignedIsGp : Prop :=
  ∀ (i : Instr) (s : State) (m : Mode) (fld : MemField), s.mode = some m → i.form = .leg → s.ready .leg = true →
    i.rm = .mem fld → aligned16 (instrPlace i m fld s).linear = false →
    exec i s = .fault (.exception ⟨13, some 0, none, s.cr2, s.rip⟩) ∨
    (s.illegal m (instrPlace i m fld s).seg (instrPlace i m fld s).ea (instrPlace i m fld s).linear 16 = some .ss ∧
      exec i s = .fault (.exception ⟨12, some 0, none, s.cr2, s.rip⟩))

/-- R61, R194, R195 in `M64`: a memory source with any byte at a non-canonical address raises `#SS(0)` when its segment is `SS`,
else `#GP(0)` (for the legacy form when it is aligned). -/
def Obligations.NonCanonicalFaults : Prop :=
  ∀ (i : Instr) (s : State) (fld : MemField) (k : Nat), s.mode = some .m64 → s.ready i.form = true → i.rm = .mem fld →
    (i.form = .leg → aligned16 (instrPlace i .m64 fld s).linear = true) →
    k < i.form.vl.bytes → canonical s.cfg.linear ((instrPlace i .m64 fld s).linear + BitVec.ofNat 64 k) = false →
    exec i s = .fault (.exception
      (if (instrPlace i .m64 fld s).seg = .ss then ⟨12, some 0, none, s.cr2, s.rip⟩
       else ⟨13, some 0, none, s.cr2, s.rip⟩))

/-- R61, R194, R195 in `M32`: a null segment raises `#GP(0)`; a segment that is not readable, or whose limit the range
`[ea, ea+n-1]` passes, raises `#SS(0)` for `SS`, else `#GP(0)`. What a null selector is, that it is tested first, and that
limits bound from above are the model's (assumption 16). -/
def Obligations.SegmentFaults : Prop :=
  ∀ (i : Instr) (s : State) (fld : MemField), s.mode = some .m32 → s.ready i.form = true → i.rm = .mem fld →
    (i.form = .leg → aligned16 (instrPlace i .m32 fld s).linear = true) →
    ((s.segment (instrPlace i .m32 fld s).seg).isNull = true →
      exec i s = .fault (.exception ⟨13, some 0, none, s.cr2, s.rip⟩)) ∧
    ((s.segment (instrPlace i .m32 fld s).seg).isNull = false →
      ((s.segment (instrPlace i .m32 fld s).seg).readable = false ∨
        (s.segment (instrPlace i .m32 fld s).seg).limit.toNat <
          (instrPlace i .m32 fld s).ea.toNat + i.form.vl.bytes - 1) →
      exec i s = .fault (.exception
        (if (instrPlace i .m32 fld s).seg = .ss then ⟨12, some 0, none, s.cr2, s.rip⟩
         else ⟨13, some 0, none, s.cr2, s.rip⟩)))

/-- R52, R62, R196, R198: when the checks before translation pass and `Translate` answers with a fault, that fault is raised. A page
fault: vector 14, its address, `CR2` receiving it, and the code's bits but for the three R198 fixes (assumption 11). `#GP(0)` and
`#SS(0)`: vectors 13 and 12, error code 0. -/
def Obligations.PageFaultIsRaised : Prop :=
  ∀ (i : Instr) (s : State) (m : Mode) (fld : MemField), s.mode = some m →
    s.ready i.form = true → i.rm = .mem fld →
    (i.form = .leg → aligned16 (instrPlace i m fld s).linear = true) →
    s.illegal m (instrPlace i m fld s).seg (instrPlace i m fld s).ea (instrPlace i m fld s).linear i.form.vl.bytes = none →
    (∀ (c : BitVec 32) (a : Addr), s.translate m (instrPlace i m fld s).linear i.form.vl.bytes = .pf c a →
      ∃ c' : BitVec 32, exec i s = .fault (.exception ⟨14, some c', some a, a, s.rip⟩) ∧
        ∀ j, j ≠ 1 → j ≠ 2 → j ≠ 4 → c'.getLsbD j = c.getLsbD j) ∧
    (s.translate m (instrPlace i m fld s).linear i.form.vl.bytes = .gp →
      exec i s = .fault (.exception ⟨13, some 0, none, s.cr2, s.rip⟩)) ∧
    (s.translate m (instrPlace i m fld s).linear i.form.vl.bytes = .ss →
      exec i s = .fault (.exception ⟨12, some 0, none, s.cr2, s.rip⟩))

/-- R58: a memory source that `Translate` classifies as a device is refused. -/
def Obligations.DeviceSourceIsRefused : Prop :=
  ∀ (i : Instr) (s : State) (m : Mode) (fld : MemField), s.mode = some m → s.ready i.form = true → i.rm = .mem fld →
    (i.form = .leg → aligned16 (instrPlace i m fld s).linear = true) →
    s.illegal m (instrPlace i m fld s).seg (instrPlace i m fld s).ea (instrPlace i m fld s).linear i.form.vl.bytes = none →
    s.translate m (instrPlace i m fld s).linear i.form.vl.bytes = .ok .device → exec i s = .refused .deviceMemory

/-! ### Memory and addresses -/

/-- R50, R52, R53, R62 on the flat instance: where no region covers a byte of the access, the read answers `n` bytes of memory,
byte `i` of the value being the byte at address `a + i`, and no bit above them. The allocated set as a map of absent ranges and
the wrap of `a + i` are the model's choices (assumptions 10 and 15). -/
def Obligations.FlatReadIsLittleEndian : Prop :=
  ∀ (s : State) (m : Mode) (a : Addr) (vl : VecLen) (map : List Region), s.translation = .flat map →
    (∀ i, i < vl.bytes → regionAt map (byteAddr m a i) = none) →
    ∃ v, s.memRead m a vl.bytes = .ok v ∧
      (∀ i, i < vl.bytes → v.extractLsb' (8 * i) 8 = s.readByte (byteAddr m a i)) ∧
      ∀ j, vl.bits ≤ j → v.getLsbD j = false

/-- R56, R62 on the flat instance: a byte that is not allocated makes the whole read a page fault, at the first such byte
(assumptions 10 and 15). -/
def Obligations.FlatFirstAbsentByteFaults : Prop :=
  ∀ (s : State) (m : Mode) (a : Addr) (n k : Nat) (map : List Region), s.translation = .flat map → k < n →
    regionAt map (byteAddr m a k) = some .absent →
    (∀ j, j < k → regionAt map (byteAddr m a j) ≠ some .absent) →
    s.memRead m a n = .raised (.pf 0 (byteAddr m a k))

/-- R110: a 1-byte displacement is sign-extended and, in EVEX, multiplied by `N = VL/8`; a 4-byte displacement is not scaled. -/
def Obligations.CompressedDisplacement : Prop :=
  ∀ (f : Form) (d8 : BitVec 8) (d32 : BitVec 32),
    (dispValue (disp8Scale f) (.d8 d8)).toInt =
      d8.toInt * (match f with | .leg | .vex128 | .vex256 => 1 | .evex128 => 16 | .evex256 => 32 | .evex512 => 64) ∧
    (dispValue (disp8Scale f) (.d32 d32)).toInt = d32.toInt

/-- R88 to R90: the effective address of each memory form, `base + index*scale + disp`: in 64-bit addressing modulo 2^64, in 32-bit
addressing (`M32`, or `67h`) modulo 2^32. Register number 4 is no index; `mod = 00b, rm = 101b` is relative to the next
instruction in `M64` and a displacement alone in `M32`; `base = 101b` under `mod = 00b` is no base. What `M32` does with
an extension bit or `67h` of a term, which the decoder refuses there, is the model's inference (assumption 26). -/
def Obligations.EffectiveAddresses : Prop :=
  ∀ (m : Mode) (a67 : Bool) (e : Ext) (n : Nat) (s : State) (ripNext : Addr) (b i : BitVec 3) (ss : BitVec 2) (d : Disp)
    (d32 : BitVec 32) (width : Nat), width = (if m = .m64 ∧ a67 = false then 64 else 32) →
    (effectiveAddress m a67 (memOperand m e n (.base b d)) s ripNext).toNat =
      ((s.gpr[gprNum m e.b b]).toNat + (dispValue n d).toNat) % 2 ^ width ∧
    (effectiveAddress m a67 (memOperand m e n (.disp32 d32)) s ripNext).toNat =
      ((if m = .m64 then ripNext.toNat else 0) + (d32.signExtend 64).toNat) % 2 ^ width ∧
    (effectiveAddress m a67 (memOperand m e n (.sib ss i b d)) s ripNext).toNat =
      ((s.gpr[gprNum m e.b b]).toNat +
        (if gprNum m e.x i = 4 then 0 else (s.gpr[gprNum m e.x i]).toNat * 2 ^ ss.toNat) +
        (dispValue n d).toNat) % 2 ^ width ∧
    (effectiveAddress m a67 (memOperand m e n (.sibDisp32 ss i d32)) s ripNext).toNat =
      ((if gprNum m e.x i = 4 then 0 else (s.gpr[gprNum m e.x i]).toNat * 2 ^ ss.toNat) +
        (d32.signExtend 64).toNat) % 2 ^ width

/-- R104: the segment of a memory source: the override in `M32`, an `FS` or `GS` override in `M64`, otherwise `SS` exactly when
the base register is number 4 or 5, else `DS`; and an instruction's memory source takes its own override and its own base
register, `B:base` or `B:rm` (R103). That `M32` drops the extension bits of a term, which the decoder never answers there, is the
model's inference (assumption 26). -/
def Obligations.SourceSegments : Prop :=
  (∀ (p : Prefixes) (o : MemOperand),
    (∀ n, p.seg = some n → sourceSegment .m32 p o = n) ∧
    (p.seg = some .fs → sourceSegment .m64 p o = .fs) ∧ (p.seg = some .gs → sourceSegment .m64 p o = .gs) ∧
    (∀ m, p.seg = none ∨ m = .m64 ∧ p.seg ≠ some .fs ∧ p.seg ≠ some .gs →
      ((o.base = some 4 ∨ o.base = some 5) → sourceSegment m p o = .ss) ∧
      (o.base ≠ some 4 → o.base ≠ some 5 → sourceSegment m p o = .ds))) ∧
  ∀ (i : Instr) (m : Mode) (s : State) (fld : MemField) (base : Option Nat),
    base = (match fld with
      | .base b _ => some ((if m = .m64 then 8 * i.ext.b.toNat else 0) + b.toNat)
      | .sib _ _ b _ => some ((if m = .m64 then 8 * i.ext.b.toNat else 0) + b.toNat)
      | .disp32 _ => none
      | .sibDisp32 _ _ _ => none) →
    (∀ n, i.prefixes.seg = some n → m = .m32 ∨ n = .fs ∨ n = .gs → (instrPlace i m fld s).seg = n) ∧
    (i.prefixes.seg = none ∨ m = .m64 ∧ i.prefixes.seg ≠ some .fs ∧ i.prefixes.seg ≠ some .gs →
      (instrPlace i m fld s).seg = if base = some 4 ∨ base = some 5 then .ss else .ds)

/-- R105: the linear address: `(segment.base + ea) mod 2^32` in `M32`; in `M64` `ea`, but for `FS` and `GS`
`(segment.base + ea) mod 2^64`; and an instruction's memory source lies at the linear address of its own segment and effective
address. -/
def Obligations.LinearAddresses : Prop :=
  (∀ (seg : SegName) (ea : Addr) (s : State),
    (linearAddress .m32 seg ea s).toNat = ((s.segment seg).base.toNat + ea.toNat) % 2 ^ 32 ∧
    (seg ≠ .fs → seg ≠ .gs → linearAddress .m64 seg ea s = ea) ∧
    (seg = .fs ∨ seg = .gs →
      (linearAddress .m64 seg ea s).toNat = ((s.segment seg).base.toNat + ea.toNat) % 2 ^ 64)) ∧
  ∀ (i : Instr) (m : Mode) (fld : MemField) (s : State),
    (instrPlace i m fld s).linear = linearAddress m (instrPlace i m fld s).seg (instrPlace i m fld s).ea s

/-- The effective address of an instruction's memory source, in numbers (R88 to R90, R103, R110): the base register is `B:rm` or
`B:base` and the index register `X:index`, and index number 4 is none; the displacement is signed, a 1-byte one times `VL/8` in
EVEX; `mod = 00b, rm = 101b` in `M64` counts from `rip + len`; the sum is modulo 2^64 in `M64` without `67h`, modulo 2^32 in `M64`
with it and in `M32`. That `M32` drops the extension bits of a term and takes no notice of its `67h`, both of which the decoder
refuses there, is the model's inference (assumption 26). -/
def Obligations.PlaceOfAMemorySource : Prop :=
  ∀ (i : Instr) (m : Mode) (s : State) (b x : BitVec 3) (ss : BitVec 2) (d : Disp) (d32 : BitVec 32) (rb rx : Fin 16)
    (width : Nat) (disp index : Int),
    width = (if m = .m64 ∧ i.prefixes.a67 = false then 64 else 32) →
    rb.val = (if m = .m64 then 8 * i.ext.b.toNat else 0) + b.toNat →
    rx.val = (if m = .m64 then 8 * i.ext.x.toNat else 0) + x.toNat →
    disp = (match d with
      | .none => 0
      | .d8 v => v.toInt *
        (match i.form with | .leg | .vex128 | .vex256 => 1 | .evex128 => 16 | .evex256 => 32 | .evex512 => 64)
      | .d32 v => v.toInt) →
    index = (if rx = 4 then 0 else ((s.gpr[rx]).toNat : Int) * 2 ^ ss.toNat) →
    ((instrPlace i m (.base b d) s).ea.toNat : Int) = (((s.gpr[rb]).toNat : Int) + disp) % 2 ^ width ∧
    ((instrPlace i m (.sib ss x b d) s).ea.toNat : Int) = (((s.gpr[rb]).toNat : Int) + index + disp) % 2 ^ width ∧
    ((instrPlace i m (.sibDisp32 ss x d32) s).ea.toNat : Int) = (index + d32.toInt) % 2 ^ width ∧
    ((instrPlace i m (.disp32 d32) s).ea.toNat : Int) =
      ((if m = .m64 then (s.rip.toNat : Int) + i.length else 0) + d32.toInt) % 2 ^ width

/-! ### Reset (spec/10_state.md R45, spec/70_reset_and_hazards.md R221) -/

/-- The values the table of R45 gives after reset, and the level and mode of R221. -/
def Obligations.ResetValues : Prop :=
  (∀ n : Fin 32, State.reset.vec[n] = 0) ∧ (∀ n : Fin 8, State.reset.k[n] = 0) ∧
  (∀ n : Fin 16, n ≠ 2 → State.reset.gpr[n] = 0) ∧ State.reset.mxcsr = 0x1F80 ∧ State.reset.rip = 0xFFF0 ∧
  State.reset.cs.base = 0xFFFF0000 ∧ State.reset.rflags = 2 ∧ State.reset.cr0 = 0x60000010 ∧ State.reset.cr4 = 0 ∧
  State.reset.xcr0 = 1 ∧ State.reset.efer = 0 ∧ State.reset.cpl = 0 ∧ State.reset.mode = none

/-- R221: in the control state reset leaves, no encoding executes, whatever the memory, the registers and the platform hold. (The
model refuses there, assumption 7; R221 says `#UD`.) -/
def Obligations.NothingRunsFromReset : Prop :=
  ∀ s t : State, s.cr0 = State.reset.cr0 → s.efer = State.reset.efer → step s ≠ .next t

/-! ### Control state (spec/10_state.md R36, R39, R40) -/

/-- R36, R39, R222: the mode is `M64` exactly when `PE`, `LMA` and the code segment's `L` are 1, and `M32` exactly when `PE` and the code
segment's `D` are 1, `VM` is 0, and not both `LMA` and `L` are 1. That `M64` asks for `PE` is read from R36 and R222 (assumption
32). -/
def Obligations.ModeOfTheControlState : Prop :=
  ∀ s : State,
    (s.mode = some .m64 ↔ s.cr0.getLsbD 0 = true ∧ s.efer.getLsbD 10 = true ∧ s.cs.l = true) ∧
    (s.mode = some .m32 ↔ s.cr0.getLsbD 0 = true ∧ s.rflags.getLsbD 17 = false ∧ s.cs.d = true ∧
      (s.efer.getLsbD 10 = false ∨ s.cs.l = false))

/-- R40: the CPUID bits that report each feature flag, the mirror of `CR4.OSXSAVE` at `CPUID.01H:ECX[27]`, and that words which
report a machine so give its feature parameters back. -/
def Obligations.CpuidReportsTheFeatures : Prop :=
  ∀ s : State,
    s.cpuidBit .leaf1Edx 26 = some s.cfg.features.sse2 ∧ s.cpuidBit .leaf1Ecx 28 = some s.cfg.features.avx ∧
    s.cpuidBit .leaf7Ebx 5 = some s.cfg.features.avx2 ∧ s.cpuidBit .leaf7Ebx 30 = some s.cfg.features.avx512bw ∧
    s.cpuidBit .leaf7Ebx 31 = some s.cfg.features.avx512vl ∧ s.cpuidBit .leaf7Ebx 16 = some s.cfg.features.avx512f ∧
    s.cpuidBit .leaf1Ecx 27 = some (s.cr4.getLsbD 18) ∧
    ∀ ecx1 edx1 ebx7 : BitVec 32, (∀ n v, s.cpuidBit .leaf1Ecx n = some v → ecx1.getLsbD n = v) →
      (∀ n v, s.cpuidBit .leaf1Edx n = some v → edx1.getLsbD n = v) →
      (∀ n v, s.cpuidBit .leaf7Ebx n = some v → ebx7.getLsbD n = v) →
      featuresOfCpuid ecx1 edx1 ebx7 = s.cfg.features
end

