-- ==== Sys2Proof/Laws/Decode.lean ====
section
/-! SUPPORT. The decoder's readers undo the encoder's writers, piece by piece: the fields of a byte, a displacement, ModRM with
what it announces, a format after its prefixes; what they read, they give back; and the length of an encoding. -/

namespace Sys2Proof

/-! ### Fields of a byte -/

theorem fieldHi2_fieldsByte : ∀ (hi : BitVec 2) (mid low : BitVec 3), fieldHi2 (fieldsByte hi mid low) = hi := by
  decide +kernel
theorem fieldMid3_fieldsByte : ∀ (hi : BitVec 2) (mid low : BitVec 3), fieldMid3 (fieldsByte hi mid low) = mid := by
  decide +kernel
theorem fieldLow3_fieldsByte : ∀ (hi : BitVec 2) (mid low : BitVec 3), fieldLow3 (fieldsByte hi mid low) = low := by
  decide +kernel

/-- A REX byte is recognised by its top bits and gives its fields back (R84). -/
theorem rexByte_top : ∀ w r x b : Bool, (rexByte ⟨w, r, x, b⟩).extractLsb' 4 4 = 4#4 := by decide +kernel
theorem rexOfByte_rexByte : ∀ w r x b : Bool, rexOfByte (rexByte ⟨w, r, x, b⟩) = ⟨w, r, x, b⟩ := by decide +kernel

/-- Four bytes and a 32-bit displacement are the same data (R88). -/
theorem disp32OfBytes_encode (d : BitVec 32) :
    disp32OfBytes (d.extractLsb' 0 8) (d.extractLsb' 8 8) (d.extractLsb' 16 8) (d.extractLsb' 24 8) = d := by
  apply BitVec.eq_of_getLsbD_eq
  intro i hi
  have h : (disp32OfBytes (d.extractLsb' 0 8) (d.extractLsb' 8 8) (d.extractLsb' 16 8) (d.extractLsb' 24 8)).getLsbD i =
      BitVec.getLsbD (w := 8 + 8 + 8 + 8)
        (d.extractLsb' 24 8 ++ d.extractLsb' 16 8 ++ d.extractLsb' 8 8 ++ d.extractLsb' 0 8) i := rfl
  rw [h]
  simp only [BitVec.getLsbD_append, BitVec.getLsbD_extractLsb']
  split
  · next h1 => simp [h1]
  · split
    · next h1 h2 => simp [h2, show 8 + (i - 8) = i by omega]
    · split
      · next h1 h2 h3 => simp [h3, show 16 + (i - 8 - 8) = i by omega]
      · next h1 h2 h3 => simp [show i - 8 - 8 - 8 < 8 by omega, show 24 + (i - 8 - 8 - 8) = i by omega]

/-! ### Readers after writers -/

theorem takeDisp32_encode (d : BitVec 32) (bs : List Byte) : takeDisp32 (encodeDisp32 d ++ bs) = some (d, bs) := by
  simp [encodeDisp32, takeDisp32, disp32OfBytes_encode]

theorem takeDisp_encode (d : Disp) (bs : List Byte) : takeDisp d.mod (d.encode ++ bs) = some (d, bs) := by
  cases d with
  | none => rfl
  | d8 v => rfl
  | d32 v => simp [takeDisp, Disp.mod, Disp.encode, takeDisp32_encode]

theorem Disp.mod_ne_three (d : Disp) : d.mod ≠ 3#2 := by cases d <;> simp [Disp.mod]

theorem Disp.mod_eq_zero (d : Disp) : d.mod = 0#2 ↔ d = .none := by
  cases d <;> simp [Disp.mod]

/-- The decoder reads ModRM, SIB and displacement back (R86 to R90). -/
theorem takeModRM_encode (reg : BitVec 3) (rm : RmField) (h : rm.wf = true) (bs : List Byte) :
    takeModRM (encodeModRM reg rm ++ bs) = some (reg, rm, bs) := by
  cases rm with
  | reg n => simp [encodeModRM, takeModRM, fieldHi2_fieldsByte, fieldMid3_fieldsByte, fieldLow3_fieldsByte]
  | mem f =>
    cases f with
    | base n d =>
      simp only [RmField.wf, MemField.wf, Bool.and_eq_true, bne_iff_ne] at h
      have hb : ¬ (d.mod = 0#2 ∧ n = 5#3) := by
        rintro ⟨h1, h2⟩
        rw [Disp.mod_eq_zero] at h1
        subst h1; subst h2
        simp [Disp.baseOk] at h
      simp [encodeModRM, takeModRM, fieldHi2_fieldsByte, fieldMid3_fieldsByte, fieldLow3_fieldsByte,
        Disp.mod_ne_three, takeMem, h.1, hb, takeDisp_encode]
    | disp32 d =>
      simp [encodeModRM, takeModRM, fieldHi2_fieldsByte, fieldMid3_fieldsByte, fieldLow3_fieldsByte, takeMem,
        takeDisp32_encode]
    | sib ss index b d =>
      simp only [RmField.wf, MemField.wf] at h
      have hb : ¬ (d.mod = 0#2 ∧ b = 5#3) := by
        rintro ⟨h1, h2⟩
        rw [Disp.mod_eq_zero] at h1
        subst h1; subst h2
        simp [Disp.baseOk] at h
      simp [encodeModRM, takeModRM, fieldHi2_fieldsByte, fieldMid3_fieldsByte, fieldLow3_fieldsByte,
        Disp.mod_ne_three, takeMem, takeSib, hb, takeDisp_encode]
    | sibDisp32 ss index d =>
      simp [encodeModRM, takeModRM, fieldHi2_fieldsByte, fieldMid3_fieldsByte, fieldLow3_fieldsByte, takeMem, takeSib,
        takeDisp32_encode]

/-- What follows the opcode byte is read back. -/
theorem takeTail_encode (reg : BitVec 3) (rm : RmField) (imm : Byte) (h : rm.wf = true) (bs : List Byte) :
    takeTail (encodeModRM reg rm ++ (imm :: bs)) = some (reg, rm, imm, bs) := by
  simp [takeTail, takeModRM_encode reg rm h]

/-- A REX byte is no prefix of R83. -/
theorem prefixKind_rexByte : ∀ w r x b : Bool, prefixKind (rexByte ⟨w, r, x, b⟩) = .none := by decide +kernel

/-! ### The payload bytes of VEX and EVEX -/

theorem vexByte_fields : ∀ t l : Bool, (vexByte t l).extractLsb' 0 2 = 2#2 ∧ (vexByte t l).extractLsb' 3 4 = 15#4 ∧
    (vexByte t l).getLsbD 7 = t ∧ (vexByte t l).getLsbD 2 = l := by decide +kernel
theorem vex3Byte_fields : ∀ r x b : Bool, (vex3Byte r x b).extractLsb' 0 5 = 1#5 ∧ (vex3Byte r x b).getLsbD 7 = !r ∧
    (vex3Byte r x b).getLsbD 6 = !x ∧ (vex3Byte r x b).getLsbD 5 = !b := by decide +kernel
theorem evexP0_fields : ∀ rHi r x b : Bool, (evexP0 ⟨rHi, r, x, b⟩).extractLsb' 0 2 = 1#2 ∧
    (evexP0 ⟨rHi, r, x, b⟩).extractLsb' 2 2 = 0#2 ∧ (evexP0 ⟨rHi, r, x, b⟩).getLsbD 4 = !rHi ∧
    (evexP0 ⟨rHi, r, x, b⟩).getLsbD 7 = !r ∧ (evexP0 ⟨rHi, r, x, b⟩).getLsbD 6 = !x ∧
    (evexP0 ⟨rHi, r, x, b⟩).getLsbD 5 = !b ∧
    (r = false → x = false → fieldHi2 (evexP0 ⟨rHi, r, x, b⟩) = 3#2) := by decide +kernel
theorem evexP1_fields : ∀ w : Bool, (evexP1 w).extractLsb' 0 2 = 2#2 ∧ (evexP1 w).extractLsb' 3 4 = 15#4 ∧
    (evexP1 w).getLsbD 2 = true ∧ (evexP1 w).getLsbD 7 = w := by decide +kernel
theorem evexP2_fields : ∀ (z : Bool) (ll : BitVec 2) (aaa : BitVec 3), (evexP2 z ll aaa).extractLsb' 5 2 = ll ∧
    (evexP2 z ll aaa).getLsbD 4 = false ∧ (evexP2 z ll aaa).getLsbD 3 = true ∧ (evexP2 z ll aaa).getLsbD 7 = z ∧
    (evexP2 z ll aaa).extractLsb' 0 3 = aaa := by intro z; cases z <;> decide +kernel
theorem bit7_of_fieldHi2 : ∀ v : Byte, fieldHi2 v = 3#2 → v.getLsbD 7 = true := by decide +kernel

/-! ### A byte with the right fields is the encoder's -/

theorem fieldsByte_fields : ∀ b : Byte, fieldsByte (fieldHi2 b) (fieldMid3 b) (fieldLow3 b) = b := by decide +kernel
theorem rexByte_rexOfByte : ∀ b : Byte, b.extractLsb' 4 4 = 4#4 → rexByte (rexOfByte b) = b := by decide +kernel
theorem vexByte_eq : ∀ v : Byte, v.extractLsb' 0 2 = 2#2 → v.extractLsb' 3 4 = 15#4 →
    vexByte (v.getLsbD 7) (v.getLsbD 2) = v := by decide +kernel
theorem vex3Byte_eq : ∀ v : Byte, v.extractLsb' 0 5 = 1#5 →
    vex3Byte (!v.getLsbD 7) (!v.getLsbD 6) (!v.getLsbD 5) = v := by decide +kernel
theorem evexP0_eq : ∀ p : Byte, p.extractLsb' 0 2 = 1#2 → p.extractLsb' 2 2 = 0#2 →
    evexP0 ⟨!p.getLsbD 4, !p.getLsbD 7, !p.getLsbD 6, !p.getLsbD 5⟩ = p := by decide +kernel
theorem evexP1_eq : ∀ p : Byte, p.extractLsb' 0 2 = 2#2 → p.extractLsb' 3 4 = 15#4 → p.getLsbD 2 = true →
    evexP1 (p.getLsbD 7) = p := by decide +kernel
theorem evexP2_eq : ∀ p : Byte, p.getLsbD 4 = false → p.getLsbD 3 = true →
    evexP2 (p.getLsbD 7) (p.extractLsb' 5 2) (p.extractLsb' 0 3) = p := by decide +kernel

theorem encodeDisp32_ofBytes (b0 b1 b2 b3 : Byte) : encodeDisp32 (disp32OfBytes b0 b1 b2 b3) = [b0, b1, b2, b3] := by
  have h : ∀ i, (disp32OfBytes b0 b1 b2 b3).getLsbD i = BitVec.getLsbD (w := 8 + 8 + 8 + 8) (b3 ++ b2 ++ b1 ++ b0) i :=
    fun _ => rfl
  simp only [encodeDisp32, List.cons.injEq, and_true]
  refine ⟨?_, ?_, ?_, ?_⟩ <;> ext i hi <;>
    simp only [BitVec.getElem_extractLsb', h, BitVec.getLsbD_append] <;>
    simp [show ¬ 8 + i < 8 by omega, show ¬ 16 + i < 8 by omega, show ¬ 24 + i < 8 by omega, hi,
      show 8 + i - 8 = i by omega, show 16 + i - 8 = 8 + i by omega, show 24 + i - 8 = 16 + i by omega]

/-! ### The formats, from the byte that selects them -/

theorem decodeFormat_C5 (m : Mode) (q : Seen) (rex : Option Rex) (bs : List Byte) :
    decodeFormat m q rex (0xC5 :: bs) = decodeVex2 m q rex.isSome bs := rfl
theorem decodeFormat_C4 (m : Mode) (q : Seen) (rex : Option Rex) (bs : List Byte) :
    decodeFormat m q rex (0xC4 :: bs) = decodeVex3 m q rex.isSome bs := rfl
theorem decodeFormat_62 (m : Mode) (q : Seen) (rex : Option Rex) (bs : List Byte) :
    decodeFormat m q rex (0x62 :: bs) = decodeEvex m q rex.isSome bs := rfl
theorem decodeFormat_0F (m : Mode) (q : Seen) (rex : Option Rex) (bs : List Byte) :
    decodeFormat m q rex (0x0F :: bs) = decodeLeg m q rex bs := rfl

theorem decodeAfterPrefixes_noRex (m : Mode) (q : Seen) (b : Byte) (bs : List Byte) (h : b.extractLsb' 4 4 ≠ 4#4) :
    decodeAfterPrefixes m q (b :: bs) = decodeFormat m q none (b :: bs) := by
  simp [decodeAfterPrefixes, h]

/-- Format VEX2 on the encoder's bytes: only a prefix or a REX byte before it can make it `#UD`. -/
theorem decodeVex2_encode (m : Mode) (q : Seen) (rexSeen r l : Bool) (bs : List Byte) (hx : m = .m32 → r = false) :
    decodeVex2 m q rexSeen (vexByte (!r) l :: opcode70 :: bs) =
      finishDecode m q (q.lock || q.f3 || rexSeen) none (fun reg rm imm =>
        if l then .vpshufhw256Vex2 q.prefixes r reg rm imm else .vpshufhw128Vex2 q.prefixes r reg rm imm) bs := by
  obtain ⟨f1, f2, f3, f4⟩ := vexByte_fields (!r) l
  have hm : ¬ (m = .m32 ∧ fieldHi2 (vexByte (!r) l) ≠ 3#2) := by
    rintro ⟨h, h2⟩
    obtain rfl := hx h
    exact h2 (by cases l <;> rfl)
  simp only [decodeVex2, if_neg hm, f1, f2, f3, f4, Bool.not_not]
  simp

theorem decodeVex3_encode (m : Mode) (q : Seen) (rexSeen r x b w l : Bool) (bs : List Byte)
    (hx : m = .m32 → r = false ∧ x = false ∧ b = false) :
    decodeVex3 m q rexSeen (vex3Byte r x b :: vexByte w l :: opcode70 :: bs) =
      finishDecode m q (q.lock || q.f3 || rexSeen) none (fun reg rm imm =>
        if l then .vpshufhw256Vex3 q.prefixes r x b w reg rm imm
        else .vpshufhw128Vex3 q.prefixes r x b w reg rm imm) bs := by
  obtain ⟨f1, f2, f3, f4⟩ := vexByte_fields w l
  obtain ⟨g1, g2, g3, g4⟩ := vex3Byte_fields r x b
  have hm : ¬ (m = .m32 ∧ fieldHi2 (vex3Byte r x b) ≠ 3#2) := by
    rintro ⟨h, h2⟩
    obtain ⟨rfl, rfl, rfl⟩ := hx h
    exact h2 rfl
  have hrej : ¬ (m = .m32 ∧ (r || x || b) = true) := by
    rintro ⟨h1, h⟩
    obtain ⟨rfl, rfl, rfl⟩ := hx h1
    simp at h
  simp only [decodeVex3, if_neg hm, f1, f2, f3, f4, g1, g2, g3, g4, Bool.not_not, if_neg hrej]
  simp

theorem decodeEvex_encode (m : Mode) (q : Seen) (rexSeen : Bool) (e : Ext) (w z : Bool) (ll : BitVec 2) (aaa : BitVec 3)
    (bs : List Byte) (hll : ll ≠ 3#2) (hz : (!z || aaa != 0#3) = true)
    (hx : m = .m32 → e = ⟨false, false, false, false⟩) :
    decodeEvex m q rexSeen (evexP0 e :: evexP1 w :: evexP2 z ll aaa :: opcode70 :: bs) =
      finishDecode m q (q.lock || q.f3 || rexSeen) none (fun reg rm imm =>
        if ll = 0#2 then .vpshufhw128Evex q.prefixes e w z aaa reg rm imm
        else if ll = 1#2 then .vpshufhw256Evex q.prefixes e w z aaa reg rm imm
        else .vpshufhw512Evex q.prefixes e w z aaa reg rm imm) bs := by
  obtain ⟨rHi, r, x, b⟩ := e
  obtain ⟨f1, f2, f3, f4, f5, f6, f7⟩ := evexP0_fields rHi r x b
  obtain ⟨g1, g2, g3, g4⟩ := evexP1_fields w
  obtain ⟨k1, k2, k3, k4, k5⟩ := evexP2_fields z ll aaa
  have hm : ¬ (m = .m32 ∧ fieldHi2 (evexP0 ⟨rHi, r, x, b⟩) ≠ 3#2) := by
    rintro ⟨h1, h⟩
    have := hx h1
    simp at this
    exact h (f7 this.2.1 this.2.2.1)
  have hrej : ¬ (m = .m32 ∧ (rHi || r || x || b) = true) := by
    rintro ⟨h1, h⟩
    have := hx h1
    simp_all
  have hz' : ¬ ((z && aaa == 0#3) = true) := by cases z <;> simp_all
  simp only [decodeEvex, if_neg hm, f1, f2, f3, f4, f5, f6, g1, g2, g3, g4, k1, k2, k3, k4, k5, evexFieldsBad,
    Bool.not_not, if_neg hrej, if_neg hz']
  have h3 : (ll == 3#2) = false := by simpa using hll
  simp [h3]

/-! ### The end of every format -/

theorem finishDecode_instr {m : Mode} {q : Seen} {build : BitVec 3 → RmField → Byte → Instr} {bs rest : List Byte}
    {reg : BitVec 3} {rm : RmField} {imm : Byte} (h : takeTail bs = some (reg, rm, imm, rest))
    (h67 : ¬ (m = .m32 ∧ q.a67 = true)) :
    finishDecode m q false none build bs = .instr (build reg rm imm) rest := by
  simp [finishDecode, h, h67]

theorem finishDecode_ud {m : Mode} {q : Seen} {bad : Bool} {rej : Option RejectReason}
    {build : BitVec 3 → RmField → Byte → Instr} {bs : List Byte} {x : BitVec 3 × RmField × Byte × List Byte}
    (h : takeTail bs = some x) (hb : bad = true) : finishDecode m q bad rej build bs = .ud := by
  simp [finishDecode, h, hb]

/-- When a format answers an instruction: no `#UD` condition, no refusal, and the tail is there. -/
theorem finishDecode_inv {m : Mode} {q : Seen} {bad : Bool} {rej : Option RejectReason}
    {build : BitVec 3 → RmField → Byte → Instr} {bs rest : List Byte} {i : Instr}
    (h : finishDecode m q bad rej build bs = .instr i rest) :
    bad = false ∧ rej = none ∧ ¬ (m = .m32 ∧ q.a67 = true) ∧
      ∃ reg rm imm, takeTail bs = some (reg, rm, imm, rest) ∧ i = build reg rm imm := by
  unfold finishDecode at h
  split at h
  · split at h
    · cases h
    · split at h <;> cases h
  · next hb =>
    split at h
    · cases h
    · split at h
      · cases h
      · next hm =>
        split at h
        · cases h
        · next ht =>
          injection h with h1 h2
          subst h2
          exact ⟨by simpa using hb, rfl, hm, _, _, _, ht, h1.symm⟩

/-! ### What the readers answer -/

theorem takeDisp32_inv {bs rest : List Byte} {d : BitVec 32} (h : takeDisp32 bs = some (d, rest)) :
    bs = encodeDisp32 d ++ rest := by
  unfold takeDisp32 at h
  split at h
  · simp at h; obtain ⟨rfl, rfl⟩ := h; simp [encodeDisp32_ofBytes]
  · cases h

theorem takeDisp_inv {mod : BitVec 2} {bs rest : List Byte} {d : Disp} (h : takeDisp mod bs = some (d, rest))
    (h3 : mod ≠ 3#2) : mod = d.mod ∧ bs = d.encode ++ rest := by
  unfold takeDisp at h
  split at h
  · simp at h; obtain ⟨rfl, rfl⟩ := h; exact ⟨‹_›, rfl⟩
  · split at h
    · split at h
      · cases h
      · simp at h; obtain ⟨rfl, rfl⟩ := h; exact ⟨‹_›, rfl⟩
    · next h0 h1 =>
      simp only [Option.map_eq_some_iff] at h
      obtain ⟨⟨d', r⟩, h4, h2⟩ := h
      simp at h2; obtain ⟨rfl, rfl⟩ := h2
      refine ⟨?_, takeDisp32_inv h4⟩
      exact (by decide : ∀ m : BitVec 2, m ≠ 3#2 → ¬ m = 0#2 → ¬ m = 1#2 → m = 2#2) mod h3 h0 h1

theorem Disp.baseOk_of {d : Disp} {b : BitVec 3} (h : ¬ (d.mod = 0#2 ∧ b = 5#3)) : d.baseOk b = true := by
  cases d <;> simp_all [Disp.baseOk, Disp.mod]

/-- What the ModRM reader takes is the encoding of what it answers, which is well-formed (R88 to R90). -/
theorem takeModRM_inv {bs rest : List Byte} {reg : BitVec 3} {rm : RmField} (h : takeModRM bs = some (reg, rm, rest)) :
    rm.wf = true ∧ bs = encodeModRM reg rm ++ rest := by
  unfold takeModRM at h
  split at h
  · cases h
  next b bs =>
  have hb := fieldsByte_fields b
  split at h
  · next h3 =>
    simp at h; obtain ⟨rfl, rfl, rfl⟩ := h
    rw [h3] at hb
    exact ⟨rfl, by simp [encodeModRM, hb]⟩
  next h3 =>
  simp only [Option.map_eq_some_iff] at h
  obtain ⟨⟨f, r⟩, hm, h2⟩ := h
  simp at h2; obtain ⟨rfl, rfl, rfl⟩ := h2
  unfold takeMem at hm
  split at hm
  · next h4 =>
    unfold takeSib at hm
    split at hm
    · cases hm
    next sb bs =>
    have hs := fieldsByte_fields sb
    split at hm
    · next h5 =>
      simp only [Option.map_eq_some_iff] at hm
      obtain ⟨⟨d, r⟩, hd, h2⟩ := hm
      simp at h2; obtain ⟨rfl, rfl⟩ := h2
      rw [h4, h5.1] at hb; rw [h5.2] at hs
      exact ⟨rfl, by simp [encodeModRM, hb, hs, takeDisp32_inv hd]⟩
    · next h5 =>
      simp only [Option.map_eq_some_iff] at hm
      obtain ⟨⟨d, r⟩, hd, h2⟩ := hm
      simp at h2; obtain ⟨rfl, rfl⟩ := h2
      obtain ⟨hmod, rfl⟩ := takeDisp_inv hd h3
      rw [h4, hmod] at hb; rw [hmod] at h5
      exact ⟨Disp.baseOk_of h5, by simp [encodeModRM, hb, hs]⟩
  next h4 =>
  split at hm
  · next h5 =>
    simp only [Option.map_eq_some_iff] at hm
    obtain ⟨⟨d, r⟩, hd, h2⟩ := hm
    simp at h2; obtain ⟨rfl, rfl⟩ := h2
    rw [h5.1, h5.2] at hb
    exact ⟨rfl, by simp [encodeModRM, hb, takeDisp32_inv hd]⟩
  · next h5 =>
    simp only [Option.map_eq_some_iff] at hm
    obtain ⟨⟨d, r⟩, hd, h2⟩ := hm
    simp at h2; obtain ⟨rfl, rfl⟩ := h2
    obtain ⟨hmod, rfl⟩ := takeDisp_inv hd h3
    rw [hmod] at hb h5
    exact ⟨by simp [RmField.wf, MemField.wf, h4, Disp.baseOk_of h5], by simp [encodeModRM, hb]⟩

/-- What the tail reader takes is the encoding of what it answers, which is well-formed. -/
theorem takeTail_inv {bs rest : List Byte} {reg : BitVec 3} {rm : RmField} {imm : Byte}
    (h : takeTail bs = some (reg, rm, imm, rest)) :
    rm.wf = true ∧ bs = encodeModRM reg rm ++ imm :: rest := by
  unfold takeTail at h
  split at h
  · cases h
  next hm =>
  split at h
  · cases h
  simp at h; obtain ⟨rfl, rfl, rfl, rfl⟩ := h
  exact takeModRM_inv hm

/-! ### An encoding after its prefixes -/

/-- A VEX or EVEX format on an encoding: only a prefix or a REX byte before it can make it `#UD`. -/
theorem decodeFormat_encodeBody {m : Mode} {i : Instr} (hw : i.wf m = true) (hf : i.form ≠ .leg) (q : Seen)
    (rex : Option Rex) (rest : List Byte) : ∃ build, (q.prefixes = i.prefixes → build i.reg i.rm i.imm = i) ∧
      decodeFormat m q rex (encodeBody i ++ rest) =
        finishDecode m q (q.lock || q.f3 || rex.isSome) none build (encodeModRM i.reg i.rm ++ i.imm :: rest) := by
  simp only [Instr.wf, Bool.and_eq_true] at hw
  obtain ⟨⟨⟨⟨-, -⟩, hext⟩, -⟩, hmask⟩ := hw
  have hx : m = .m32 → i.ext = ⟨false, false, false, false⟩ := by rintro rfl; simpa [Instr.extOk] using hext
  cases i <;> simp only [Instr.ext, Ext.mk.injEq, true_and, and_true] at hx <;>
    simp only [encodeBody, evexBody, encodeTail, List.cons_append, List.append_assoc, List.nil_append,
      decodeFormat_C5, decodeFormat_C4, decodeFormat_62]
  case pshufhw => exact absurd rfl hf
  case vpshufhw128Vex2 | vpshufhw256Vex2 =>
    rw [decodeVex2_encode m q _ _ _ _ hx]
    exact ⟨_, by rintro h; simp [h, Instr.prefixes, Instr.reg, Instr.rm, Instr.imm], rfl⟩
  case vpshufhw128Vex3 | vpshufhw256Vex3 =>
    rw [decodeVex3_encode m q _ _ _ _ _ _ _ hx]
    exact ⟨_, by rintro h; simp [h, Instr.prefixes, Instr.reg, Instr.rm, Instr.imm], rfl⟩
  case vpshufhw128Evex | vpshufhw256Evex | vpshufhw512Evex =>
    rw [decodeEvex_encode m q _ _ _ _ _ _ _ (by decide) hmask hx]
    exact ⟨_, by rintro h; simp [h, Instr.prefixes, Instr.reg, Instr.rm, Instr.imm], rfl⟩

/-- It starts with neither a prefix nor a REX byte. -/
theorem encodeBody_head {i : Instr} (hf : i.form ≠ .leg) :
    ∃ b bs, encodeBody i = b :: bs ∧ prefixKind b = .none ∧ b.extractLsb' 4 4 ≠ 4#4 := by
  cases i
  case pshufhw => exact absurd rfl hf
  all_goals exact ⟨_, _, rfl, by decide, by decide⟩

/-- The same of every format after its prefixes, format LEG having its `F3h`. -/
theorem decodeAfterPrefixes_encodeBody {m : Mode} {i : Instr} (hw : i.wf m = true) {q : Seen}
    (hf : i.form = .leg → q.f3 = true) (rest : List Byte) :
    ∃ build, (q.prefixes = i.prefixes → build i.reg i.rm i.imm = i) ∧
      decodeAfterPrefixes m q (encodeBody i ++ rest) =
        finishDecode m q (q.lock || (q.f3 && i.form != .leg)) none build (encodeModRM i.reg i.rm ++ i.imm :: rest) := by
  by_cases hl : i.form = .leg
  · cases i <;> simp [Instr.form] at hl
    next p rex reg rm imm =>
    simp only [Instr.wf, Bool.and_eq_true, Instr.rexOk] at hw
    refine ⟨fun reg rm imm => .pshufhw q.prefixes rex reg rm imm,
      fun h => by simp [h, Instr.prefixes, Instr.reg, Instr.rm, Instr.imm], ?_⟩
    have h3 := hf rfl
    cases rex with
    | none =>
      simp only [encodeBody, encodeTail, List.nil_append, List.cons_append, List.append_assoc]
      rw [decodeAfterPrefixes_noRex _ _ _ _ (by decide), decodeFormat_0F, decodeLeg]
      simp [Instr.form, Instr.reg, Instr.rm, Instr.imm, h3]
    | some r =>
      obtain ⟨w, r, x, b⟩ := r
      obtain rfl : m = .m64 := by simpa using hw.1.1.1.2
      simp only [encodeBody, encodeTail, List.nil_append, List.cons_append, List.append_assoc, decodeAfterPrefixes,
        rexByte_top, rexOfByte_rexByte, and_self, if_true, decodeFormat_0F, decodeLeg]
      simp [Instr.form, Instr.reg, Instr.rm, Instr.imm, h3]
  · obtain ⟨b, bs, hb, -, h4⟩ := encodeBody_head hl
    obtain ⟨build, h1, h2⟩ := decodeFormat_encodeBody hw hl q none rest
    refine ⟨build, h1, ?_⟩
    rw [hb, List.cons_append] at h2 ⊢
    rw [decodeAfterPrefixes_noRex _ _ _ _ h4, h2]
    have hn : (i.form != .leg) = true := by simpa using hl
    simp [hn]


/-! ### Lengths -/

theorem Disp.length_encode (d : Disp) : d.encode.length = d.length := by cases d <;> rfl

theorem RmField.length_encode (reg : BitVec 3) (rm : RmField) : (encodeModRM reg rm).length = rm.length := by
  cases rm with
  | reg n => rfl
  | mem f => cases f <;> simp [encodeModRM, RmField.length, Disp.length_encode, encodeDisp32] <;> omega

theorem Prefixes.length_encode (p : Prefixes) : (encodePrefixes p).length = p.length := by
  obtain ⟨seg, a67⟩ := p
  cases seg <;> cases a67 <;> rfl

theorem encodeTail_length (reg : BitVec 3) (rm : RmField) (imm : Byte) :
    (encodeTail reg rm imm).length = rm.length + 2 := by
  simp [encodeTail, RmField.length_encode]

end Sys2Proof
end

