-- ==== Sys2Proof/Laws/State.lean ====
section
/-! SUPPORT. One lemma per field of State per named update, so that no proof unfolds a record update. -/

namespace Sys2Proof.Machine

@[simp] theorem State.writeVec_cfg (s : State) (n : Fin 32) (v : Vec) : (s.writeVec n v).cfg = s.cfg := rfl
@[simp] theorem State.writeVec_vec (s : State) (n : Fin 32) (v : Vec) : (s.writeVec n v).vec = s.vec.set n (lowBits s.cfg.maxvl v) := rfl
@[simp] theorem State.writeVec_k (s : State) (n : Fin 32) (v : Vec) : (s.writeVec n v).k = s.k := rfl
@[simp] theorem State.writeVec_gpr (s : State) (n : Fin 32) (v : Vec) : (s.writeVec n v).gpr = s.gpr := rfl
@[simp] theorem State.writeVec_rip (s : State) (n : Fin 32) (v : Vec) : (s.writeVec n v).rip = s.rip := rfl
@[simp] theorem State.writeVec_rflags (s : State) (n : Fin 32) (v : Vec) : (s.writeVec n v).rflags = s.rflags := rfl
@[simp] theorem State.writeVec_mxcsr (s : State) (n : Fin 32) (v : Vec) : (s.writeVec n v).mxcsr = s.mxcsr := rfl
@[simp] theorem State.writeVec_cr0 (s : State) (n : Fin 32) (v : Vec) : (s.writeVec n v).cr0 = s.cr0 := rfl
@[simp] theorem State.writeVec_cr2 (s : State) (n : Fin 32) (v : Vec) : (s.writeVec n v).cr2 = s.cr2 := rfl
@[simp] theorem State.writeVec_cr4 (s : State) (n : Fin 32) (v : Vec) : (s.writeVec n v).cr4 = s.cr4 := rfl
@[simp] theorem State.writeVec_xcr0 (s : State) (n : Fin 32) (v : Vec) : (s.writeVec n v).xcr0 = s.xcr0 := rfl
@[simp] theorem State.writeVec_efer (s : State) (n : Fin 32) (v : Vec) : (s.writeVec n v).efer = s.efer := rfl
@[simp] theorem State.writeVec_es (s : State) (n : Fin 32) (v : Vec) : (s.writeVec n v).es = s.es := rfl
@[simp] theorem State.writeVec_cs (s : State) (n : Fin 32) (v : Vec) : (s.writeVec n v).cs = s.cs := rfl
@[simp] theorem State.writeVec_ss (s : State) (n : Fin 32) (v : Vec) : (s.writeVec n v).ss = s.ss := rfl
@[simp] theorem State.writeVec_ds (s : State) (n : Fin 32) (v : Vec) : (s.writeVec n v).ds = s.ds := rfl
@[simp] theorem State.writeVec_fs (s : State) (n : Fin 32) (v : Vec) : (s.writeVec n v).fs = s.fs := rfl
@[simp] theorem State.writeVec_gs (s : State) (n : Fin 32) (v : Vec) : (s.writeVec n v).gs = s.gs := rfl
@[simp] theorem State.writeVec_cpl (s : State) (n : Fin 32) (v : Vec) : (s.writeVec n v).cpl = s.cpl := rfl
@[simp] theorem State.writeVec_idtrBase (s : State) (n : Fin 32) (v : Vec) : (s.writeVec n v).idtrBase = s.idtrBase := rfl
@[simp] theorem State.writeVec_debugArmed (s : State) (n : Fin 32) (v : Vec) : (s.writeVec n v).debugArmed = s.debugArmed := rfl
@[simp] theorem State.writeVec_mem (s : State) (n : Fin 32) (v : Vec) : (s.writeVec n v).mem = s.mem := rfl
@[simp] theorem State.writeVec_translation (s : State) (n : Fin 32) (v : Vec) : (s.writeVec n v).translation = s.translation := rfl
@[simp] theorem State.writeVec_freeIndex (s : State) (n : Fin 32) (v : Vec) : (s.writeVec n v).freeIndex = s.freeIndex := rfl

@[simp] theorem State.advance_cfg (s : State) (m : Mode) (len : Nat) : (s.advance m len).cfg = s.cfg := rfl
@[simp] theorem State.advance_vec (s : State) (m : Mode) (len : Nat) : (s.advance m len).vec = s.vec := rfl
@[simp] theorem State.advance_k (s : State) (m : Mode) (len : Nat) : (s.advance m len).k = s.k := rfl
@[simp] theorem State.advance_gpr (s : State) (m : Mode) (len : Nat) : (s.advance m len).gpr = s.gpr := rfl
@[simp] theorem State.advance_rip (s : State) (m : Mode) (len : Nat) : (s.advance m len).rip = s.nextRip m len := rfl
@[simp] theorem State.advance_rflags (s : State) (m : Mode) (len : Nat) : (s.advance m len).rflags = s.rflags := rfl
@[simp] theorem State.advance_mxcsr (s : State) (m : Mode) (len : Nat) : (s.advance m len).mxcsr = s.mxcsr := rfl
@[simp] theorem State.advance_cr0 (s : State) (m : Mode) (len : Nat) : (s.advance m len).cr0 = s.cr0 := rfl
@[simp] theorem State.advance_cr2 (s : State) (m : Mode) (len : Nat) : (s.advance m len).cr2 = s.cr2 := rfl
@[simp] theorem State.advance_cr4 (s : State) (m : Mode) (len : Nat) : (s.advance m len).cr4 = s.cr4 := rfl
@[simp] theorem State.advance_xcr0 (s : State) (m : Mode) (len : Nat) : (s.advance m len).xcr0 = s.xcr0 := rfl
@[simp] theorem State.advance_efer (s : State) (m : Mode) (len : Nat) : (s.advance m len).efer = s.efer := rfl
@[simp] theorem State.advance_es (s : State) (m : Mode) (len : Nat) : (s.advance m len).es = s.es := rfl
@[simp] theorem State.advance_cs (s : State) (m : Mode) (len : Nat) : (s.advance m len).cs = s.cs := rfl
@[simp] theorem State.advance_ss (s : State) (m : Mode) (len : Nat) : (s.advance m len).ss = s.ss := rfl
@[simp] theorem State.advance_ds (s : State) (m : Mode) (len : Nat) : (s.advance m len).ds = s.ds := rfl
@[simp] theorem State.advance_fs (s : State) (m : Mode) (len : Nat) : (s.advance m len).fs = s.fs := rfl
@[simp] theorem State.advance_gs (s : State) (m : Mode) (len : Nat) : (s.advance m len).gs = s.gs := rfl
@[simp] theorem State.advance_cpl (s : State) (m : Mode) (len : Nat) : (s.advance m len).cpl = s.cpl := rfl
@[simp] theorem State.advance_idtrBase (s : State) (m : Mode) (len : Nat) : (s.advance m len).idtrBase = s.idtrBase := rfl
@[simp] theorem State.advance_debugArmed (s : State) (m : Mode) (len : Nat) : (s.advance m len).debugArmed = s.debugArmed := rfl
@[simp] theorem State.advance_mem (s : State) (m : Mode) (len : Nat) : (s.advance m len).mem = s.mem := rfl
@[simp] theorem State.advance_translation (s : State) (m : Mode) (len : Nat) : (s.advance m len).translation = s.translation := rfl
@[simp] theorem State.advance_freeIndex (s : State) (m : Mode) (len : Nat) : (s.advance m len).freeIndex = s.freeIndex := rfl

@[simp] theorem State.storeByte_cfg (s : State) (a : Addr) (v : Byte) : (s.storeByte a v).cfg = s.cfg := rfl
@[simp] theorem State.storeByte_vec (s : State) (a : Addr) (v : Byte) : (s.storeByte a v).vec = s.vec := rfl
@[simp] theorem State.storeByte_k (s : State) (a : Addr) (v : Byte) : (s.storeByte a v).k = s.k := rfl
@[simp] theorem State.storeByte_gpr (s : State) (a : Addr) (v : Byte) : (s.storeByte a v).gpr = s.gpr := rfl
@[simp] theorem State.storeByte_rip (s : State) (a : Addr) (v : Byte) : (s.storeByte a v).rip = s.rip := rfl
@[simp] theorem State.storeByte_rflags (s : State) (a : Addr) (v : Byte) : (s.storeByte a v).rflags = s.rflags := rfl
@[simp] theorem State.storeByte_mxcsr (s : State) (a : Addr) (v : Byte) : (s.storeByte a v).mxcsr = s.mxcsr := rfl
@[simp] theorem State.storeByte_cr0 (s : State) (a : Addr) (v : Byte) : (s.storeByte a v).cr0 = s.cr0 := rfl
@[simp] theorem State.storeByte_cr2 (s : State) (a : Addr) (v : Byte) : (s.storeByte a v).cr2 = s.cr2 := rfl
@[simp] theorem State.storeByte_cr4 (s : State) (a : Addr) (v : Byte) : (s.storeByte a v).cr4 = s.cr4 := rfl
@[simp] theorem State.storeByte_xcr0 (s : State) (a : Addr) (v : Byte) : (s.storeByte a v).xcr0 = s.xcr0 := rfl
@[simp] theorem State.storeByte_efer (s : State) (a : Addr) (v : Byte) : (s.storeByte a v).efer = s.efer := rfl
@[simp] theorem State.storeByte_es (s : State) (a : Addr) (v : Byte) : (s.storeByte a v).es = s.es := rfl
@[simp] theorem State.storeByte_cs (s : State) (a : Addr) (v : Byte) : (s.storeByte a v).cs = s.cs := rfl
@[simp] theorem State.storeByte_ss (s : State) (a : Addr) (v : Byte) : (s.storeByte a v).ss = s.ss := rfl
@[simp] theorem State.storeByte_ds (s : State) (a : Addr) (v : Byte) : (s.storeByte a v).ds = s.ds := rfl
@[simp] theorem State.storeByte_fs (s : State) (a : Addr) (v : Byte) : (s.storeByte a v).fs = s.fs := rfl
@[simp] theorem State.storeByte_gs (s : State) (a : Addr) (v : Byte) : (s.storeByte a v).gs = s.gs := rfl
@[simp] theorem State.storeByte_cpl (s : State) (a : Addr) (v : Byte) : (s.storeByte a v).cpl = s.cpl := rfl
@[simp] theorem State.storeByte_idtrBase (s : State) (a : Addr) (v : Byte) : (s.storeByte a v).idtrBase = s.idtrBase := rfl
@[simp] theorem State.storeByte_debugArmed (s : State) (a : Addr) (v : Byte) : (s.storeByte a v).debugArmed = s.debugArmed := rfl
@[simp] theorem State.storeByte_mem (s : State) (a : Addr) (v : Byte) : (s.storeByte a v).mem = Memory.write s.mem a.toNat v := rfl
@[simp] theorem State.storeByte_translation (s : State) (a : Addr) (v : Byte) : (s.storeByte a v).translation = s.translation := rfl
@[simp] theorem State.storeByte_freeIndex (s : State) (a : Addr) (v : Byte) : (s.storeByte a v).freeIndex = s.freeIndex := rfl

@[simp] theorem State.launch_cfg (s : State) : s.launch.cfg = s.cfg := rfl
@[simp] theorem State.launch_vec (s : State) : s.launch.vec = s.vec := rfl
@[simp] theorem State.launch_k (s : State) : s.launch.k = s.k := rfl
@[simp] theorem State.launch_gpr (s : State) : s.launch.gpr = s.gpr := rfl
@[simp] theorem State.launch_rip (s : State) : s.launch.rip = s.rip := rfl
@[simp] theorem State.launch_rflags (s : State) : s.launch.rflags = s.rflags := rfl
@[simp] theorem State.launch_mxcsr (s : State) : s.launch.mxcsr = s.mxcsr := rfl
@[simp] theorem State.launch_cr2 (s : State) : s.launch.cr2 = s.cr2 := rfl
@[simp] theorem State.launch_es (s : State) : s.launch.es = s.es := rfl
@[simp] theorem State.launch_ss (s : State) : s.launch.ss = s.ss := rfl
@[simp] theorem State.launch_ds (s : State) : s.launch.ds = s.ds := rfl
@[simp] theorem State.launch_fs (s : State) : s.launch.fs = s.fs := rfl
@[simp] theorem State.launch_gs (s : State) : s.launch.gs = s.gs := rfl
@[simp] theorem State.launch_cpl (s : State) : s.launch.cpl = s.cpl := rfl
@[simp] theorem State.launch_idtrBase (s : State) : s.launch.idtrBase = s.idtrBase := rfl
@[simp] theorem State.launch_mem (s : State) : s.launch.mem = s.mem := rfl
@[simp] theorem State.launch_translation (s : State) : s.launch.translation = s.translation := rfl
@[simp] theorem State.launch_freeIndex (s : State) : s.launch.freeIndex = s.freeIndex := rfl

/-! ### What the reads answer after an update -/

@[simp] theorem State.writeVec_readByte (s : State) (n : Fin 32) (v : Vec) (a : Addr) :
    (s.writeVec n v).readByte a = s.readByte a := rfl
@[simp] theorem State.advance_readByte (s : State) (m : Mode) (len : Nat) (a : Addr) :
    (s.advance m len).readByte a = s.readByte a := rfl
@[simp] theorem State.writeVec_nextRip (s : State) (n : Fin 32) (v : Vec) (m : Mode) (len : Nat) :
    (s.writeVec n v).nextRip m len = s.nextRip m len := by cases m <;> rfl
@[simp] theorem State.writeVec_mode (s : State) (n : Fin 32) (v : Vec) : (s.writeVec n v).mode = s.mode := rfl
@[simp] theorem State.advance_mode (s : State) (m : Mode) (len : Nat) : (s.advance m len).mode = s.mode := rfl

theorem State.writeVec_vec_same (s : State) (n : Fin 32) (v : Vec) :
    (s.writeVec n v).vec[n] = lowBits s.cfg.maxvl v := by simp
theorem State.writeVec_vec_other (s : State) (n j : Fin 32) (v : Vec) (h : j ≠ n) :
    (s.writeVec n v).vec[j] = s.vec[j] := by
  have hne : (n : Nat) ≠ j := fun e => h (Fin.ext e.symm)
  simp [hne]

/-- In `M32` the next instruction pointer has 32 bits (R28). -/
theorem State.nextRip_m32_lt (s : State) (len : Nat) : (s.nextRip .m32 len).toNat < 2 ^ 32 := by
  simp only [State.nextRip, BitVec.toNat_setWidth]
  omega

/-- A launched state is in `M64` with every control-field premise of R222. -/
theorem State.launch_mode (s : State) : s.launch.mode = some .m64 := by
  simp [State.mode, State.cr0PE, State.eferLMA, State.launch]

end Sys2Proof.Machine
end

