-- ==== Sys2Proof/Laws/Pieces.lean ====
section
/-! SUPPORT. Vectors made of equal pieces: the bits, words and lanes of `ofPieces`, `lowBits`, `shufHi`, `shufHiVec`,
`maskWords` and `keepUpper`. -/

namespace Sys2Proof

theorem VecLen.bits_le (vl : VecLen) : vl.bits ≤ 512 := by cases vl <;> decide
theorem VecLen.words_eq (vl : VecLen) : 16 * vl.words = vl.bits := by cases vl <;> rfl
theorem VecLen.bytes_eq (vl : VecLen) : 8 * vl.bytes = vl.bits := by cases vl <;> rfl
theorem VecLen.lanes_eq (vl : VecLen) : 128 * (vl.bits / 128) = vl.bits := by cases vl <;> rfl
theorem VecLen.le_bits (vl : VecLen) : 128 ≤ vl.bits := by cases vl <;> decide

end Sys2Proof

namespace Sys2Proof.Machine

/-- Bit `i` of a vector of `n` pieces of width `w`. -/
theorem getLsbD_ofPieces (w : Nat) (hw : 0 < w) (n : Nat) (f : Nat → BitVec w) (i : Nat) (hi : i < 512) :
    (ofPieces w n f).getLsbD i = (decide (i < w * n) && (f (i / w)).getLsbD (i % w)) := by
  induction n with
  | zero => simp [ofPieces]
  | succ n ih =>
    simp only [ofPieces, BitVec.getLsbD_or, ih, BitVec.getLsbD_shiftLeft, BitVec.getLsbD_setWidth, hi, decide_true,
      Bool.true_and]
    rw [Nat.mul_succ]
    by_cases h1 : i < w * n
    · have h2 : i < w * n + w := by omega
      simp [h1, h2]
    · by_cases h2 : i < w * n + w
      · have hd : i / w = n := by
          rw [Nat.div_eq_iff hw]; rw [Nat.mul_comm] at h1 h2; omega
        have hm : i % w = i - w * n := by
          have := Nat.div_add_mod i w; rw [hd] at this; omega
        have h3 : i - w * n < 512 := by omega
        simp [h1, h2, hd, hm, h3]
      · have h4 : w ≤ i - w * n := by omega
        simp [h1, h2, BitVec.getLsbD_of_ge _ _ h4]

/-- Piece `j`. -/
theorem extract_ofPieces (w n : Nat) (hw : 0 < w) (hn : w * n ≤ 512) (f : Nat → BitVec w) (j : Nat) (hj : j < n) :
    (ofPieces w n f).extractLsb' (w * j) w = f j := by
  have hle : w * (j + 1) ≤ w * n := Nat.mul_le_mul_left w hj
  rw [Nat.mul_succ] at hle
  ext i hi
  have h1 : w * j + i < 512 := by omega
  have h2 : w * j + i < w * n := by omega
  have h3 : (w * j + i) / w = j := by
    rw [Nat.mul_add_div hw, Nat.div_eq_of_lt hi, Nat.add_zero]
  have h4 : (w * j + i) % w = i := by rw [Nat.mul_add_mod, Nat.mod_eq_of_lt hi]
  simp only [BitVec.getElem_extractLsb', getLsbD_ofPieces w hw n f _ h1, h2, h3, h4, decide_true, Bool.true_and]
  exact BitVec.getLsbD_eq_getElem hi

/-- No bit stands above the pieces. -/
theorem getLsbD_ofPieces_ge (w : Nat) (hw : 0 < w) (n : Nat) (f : Nat → BitVec w) (i : Nat) (h : w * n ≤ i) :
    (ofPieces w n f).getLsbD i = false := by
  by_cases hi : i < 512
  · rw [getLsbD_ofPieces w hw n f i hi]; simp [Nat.not_lt.mpr h]
  · exact BitVec.getLsbD_of_ge _ _ (by omega)

@[simp] theorem getLsbD_lowBits (vl : VecLen) (v : Vec) (i : Nat) :
    (lowBits vl v).getLsbD i = (decide (i < vl.bits) && v.getLsbD i) := by
  have h := VecLen.bits_le vl
  simp only [lowBits, BitVec.getLsbD_setWidth]
  by_cases h1 : i < vl.bits
  · have h2 : i < 512 := by omega
    simp [h1, h2]
  · simp [h1]

/-- `lowBits` keeps a vector that has no bit at or above the length. -/
theorem lowBits_eq_self (vl : VecLen) (v : Vec) (h : ∀ i, vl.bits ≤ i → v.getLsbD i = false) : lowBits vl v = v := by
  apply BitVec.eq_of_getLsbD_eq
  intro i _
  by_cases h1 : i < vl.bits
  · simp [h1]
  · simp [h1, h i (by omega)]

/-- A word below the length is kept by `lowBits`. -/
theorem word_lowBits (vl : VecLen) (v : Vec) (j : Nat) (hj : j < vl.words) : word (lowBits vl v) j = word v j := by
  have h := VecLen.words_eq vl
  ext i hi
  have h1 : 16 * j + i < vl.bits := by omega
  simp [word, h1]

theorem word_ofPieces (n : Nat) (hn : n ≤ 32) (f : Nat → Word) (j : Nat) (hj : j < n) :
    word (ofPieces 16 n f) j = f j := extract_ofPieces 16 n (by decide) (by omega) f j hj

theorem lane_ofPieces (n : Nat) (hn : n ≤ 4) (f : Nat → Lane) (l : Nat) (hl : l < n) :
    lane (ofPieces 128 n f) l = f l := extract_ofPieces 128 n (by decide) (by omega) f l hl

/-! ### The lane function -/

/-- The bits of `ShufHi`, the concatenation read from the top. -/
theorem getLsbD_shufHi (s : Lane) (imm : Byte) (i : Nat) :
    (shufHi s imm).getLsbD i =
      if i < 64 then s.getLsbD i
      else if i - 64 < 16 then (highWord s (immField imm 0)).getLsbD (i - 64)
      else if i - 64 - 16 < 16 then (highWord s (immField imm 1)).getLsbD (i - 64 - 16)
      else if i - 64 - 16 - 16 < 16 then (highWord s (immField imm 2)).getLsbD (i - 64 - 16 - 16)
      else (highWord s (immField imm 3)).getLsbD (i - 64 - 16 - 16 - 16) := by
  have h : (shufHi s imm).getLsbD i = BitVec.getLsbD (w := 16 + 16 + 16 + 16 + 64)
      (highWord s (immField imm 3) ++ highWord s (immField imm 2) ++ highWord s (immField imm 1) ++
        highWord s (immField imm 0) ++ s.extractLsb' 0 64) i := rfl
  rw [h]
  simp only [BitVec.getLsbD_append, BitVec.getLsbD_extractLsb']
  by_cases h1 : i < 64
  · simp [h1]
  · simp [h1]

theorem shufHi_low (s : Lane) (imm : Byte) : (shufHi s imm).extractLsb' 0 64 = s.extractLsb' 0 64 := by
  ext i hi
  simp [getLsbD_shufHi, hi]

/-- Word `4 + n` of the result is the source word field `n` selects (R140). -/
theorem shufHi_high (s : Lane) (imm : Byte) (n : Nat) (hn : n < 4) :
    (shufHi s imm).extractLsb' (64 + 16 * n) 16 = highWord s (immField imm n) := by
  ext i hi
  rw [BitVec.getElem_extractLsb', getLsbD_shufHi, ← BitVec.getLsbD_eq_getElem]
  have hn' : n = 0 ∨ n = 1 ∨ n = 2 ∨ n = 3 := by omega
  rcases hn' with rfl | rfl | rfl | rfl
  · rw [if_neg (by omega), if_pos (by omega)]; congr 1; omega
  · rw [if_neg (by omega), if_neg (by omega), if_pos (by omega)]; congr 1; omega
  · rw [if_neg (by omega), if_neg (by omega), if_neg (by omega), if_pos (by omega)]; congr 1; omega
  · rw [if_neg (by omega), if_neg (by omega), if_neg (by omega), if_neg (by omega)]; congr 1; omega

/-- A vector function result has no bit at or above its length. -/
theorem getLsbD_shufHiVec_ge (vl : VecLen) (s : Vec) (imm : Byte) (i : Nat) (h : vl.bits ≤ i) :
    (shufHiVec vl s imm).getLsbD i = false :=
  getLsbD_ofPieces_ge 128 (by decide) _ _ i (by rw [VecLen.lanes_eq]; exact h)

theorem getLsbD_maskWords_ge (vl : VecLen) (old t : Vec) (mask : BitVec 64) (aaa : BitVec 3) (z : Bool) (i : Nat)
    (h : vl.bits ≤ i) : (maskWords vl old t mask aaa z).getLsbD i = false :=
  getLsbD_ofPieces_ge 16 (by decide) _ _ i (by rw [VecLen.words_eq]; exact h)

theorem getLsbD_keepUpper (old t : Vec) (i : Nat) :
    (keepUpper old t).getLsbD i = if i < 128 then t.getLsbD i else old.getLsbD i := by
  have h : (keepUpper old t).getLsbD i =
      BitVec.getLsbD (w := 384 + 128) (old.extractLsb' 128 384 ++ t.extractLsb' 0 128) i := rfl
  rw [h]
  simp only [BitVec.getLsbD_append, BitVec.getLsbD_extractLsb']
  by_cases h1 : i < 128
  · simp [h1]
  · by_cases h2 : i < 512
    · simp [h1, show i - 128 < 384 by omega, show 128 + (i - 128) = i by omega]
    · simp [h1, show ¬ i - 128 < 384 by omega, BitVec.getLsbD_of_ge old i (by omega)]

/-! ### Equality of lanes and vectors from their words -/

/-- A lane is its low quadword and its four high words. -/
theorem lane_ext (a b : Lane) (h0 : a.extractLsb' 0 64 = b.extractLsb' 0 64)
    (h : ∀ n, n < 4 → a.extractLsb' (64 + 16 * n) 16 = b.extractLsb' (64 + 16 * n) 16) : a = b := by
  apply BitVec.eq_of_getLsbD_eq
  intro i hi
  by_cases h1 : i < 64
  · have := congrArg (fun v => v.getLsbD i) h0
    simpa [h1] using this
  · have := congrArg (fun v => v.getLsbD ((i - 64) % 16)) (h ((i - 64) / 16) (by omega))
    simpa [Nat.mod_lt, show 64 + 16 * ((i - 64) / 16) + (i - 64) % 16 = i by omega] using this

/-- A vector with no bit at or above `VL` is its `KL` words. -/
theorem vec_ext (vl : VecLen) (a b : Vec) (ha : ∀ i, vl.bits ≤ i → a.getLsbD i = false)
    (hb : ∀ i, vl.bits ≤ i → b.getLsbD i = false)
    (h : ∀ j, j < vl.words → a.extractLsb' (16 * j) 16 = b.extractLsb' (16 * j) 16) : a = b := by
  apply BitVec.eq_of_getLsbD_eq
  intro i _
  by_cases h1 : i < vl.bits
  · have hw := VecLen.words_eq vl
    have := congrArg (fun v => v.getLsbD (i % 16)) (h (i / 16) (by omega))
    simpa [Nat.mod_lt, show 16 * (i / 16) + i % 16 = i by omega] using this
  · rw [ha i (by omega), hb i (by omega)]

/-- Where `VL ≤ MAXVL`, writing a register loses no bit of a result. -/
theorem lowBits_shufHiVec (maxvl vl : VecLen) (h : vl.bits ≤ maxvl.bits) (v : Vec) (imm : Byte) :
    lowBits maxvl (shufHiVec vl v imm) = shufHiVec vl v imm :=
  lowBits_eq_self _ _ fun i hi => getLsbD_shufHiVec_ge _ _ _ _ (by omega)

theorem lowBits_maskWords (maxvl vl : VecLen) (h : vl.bits ≤ maxvl.bits) (old t : Vec) (mask : BitVec 64)
    (aaa : BitVec 3) (z : Bool) : lowBits maxvl (maskWords vl old t mask aaa z) = maskWords vl old t mask aaa z :=
  lowBits_eq_self _ _ fun i hi => getLsbD_maskWords_ge _ _ _ _ _ _ _ (by omega)

end Sys2Proof.Machine
end

