-- ==== Sys2Proof/Laws/Exec.lean ====
section
/-! SUPPORT. What one instruction can do: the inversion of the shared order of steps, once, and exec as an instance of it. -/

namespace Sys2Proof.Machine

/-- `State.ready` says that no state-dependent test raises. -/
theorem State.formFault_eq_none (s : State) (f : Form) : s.formFault f = none ↔ s.ready f = true := by
  have key : ∀ a b c : Bool, (if (!(a && b)) = true then some Exception.ud
      else if c = true then some Exception.nm else none) = none ↔ (a && !c && b) = true := by decide
  cases f <;> exact key _ _ _

theorem runShuffle_next (f : Form) (p : Prefixes) (e : Ext) (reg : BitVec 3) (rm : RmField) (imm : Byte) (len : Nat)
    (write : Vec → Vec → Vec) (s t : State) :
    runShuffle f p e reg rm imm len write s = .next t ↔
      ∃ m v, s.mode = some m ∧ s.formFault f = none ∧ srcVal f m p e rm len s = .ok v ∧
        t = (s.writeVec (destNum m e reg)
              (write (s.readVec (destNum m e reg)) (shufHiVec f.vl v imm))).advance m len := by
  constructor
  · intro h
    unfold runShuffle at h
    split at h
    · cases h
    · next m hm =>
      split at h
      · cases h
      · next hf =>
        split at h
        · cases h
        · cases h
        · next v hv =>
          injection h with h
          exact ⟨m, v, hm, hf, hv, h.symm⟩
  · rintro ⟨m, v, hm, hf, hv, rfl⟩
    simp [runShuffle, hm, hf, hv]

theorem runShuffle_fault (f : Form) (p : Prefixes) (e : Ext) (reg : BitVec 3) (rm : RmField) (imm : Byte) (len : Nat)
    (write : Vec → Vec → Vec) (s : State) (φ : Fault) :
    runShuffle f p e reg rm imm len write s = .fault φ ↔
      ∃ m x, s.mode = some m ∧
        (s.formFault f = some x ∨ s.formFault f = none ∧ srcVal f m p e rm len s = .raised x) ∧
        φ = .exception (x.record s) := by
  constructor
  · intro h
    unfold runShuffle raise at h
    split at h
    · cases h
    · next m hm =>
      split at h
      · next x hx => injection h with h; exact ⟨m, x, hm, .inl hx, h.symm⟩
      · next hf =>
        split at h
        · next x hx => injection h with h; exact ⟨m, x, hm, .inr ⟨hf, hx⟩, h.symm⟩
        · cases h
        · cases h
  · rintro ⟨m, x, hm, hx | ⟨hf, hx⟩, rfl⟩
    · simp [runShuffle, raise, hm, hx]
    · simp [runShuffle, raise, hm, hf, hx]

theorem runShuffle_refused (f : Form) (p : Prefixes) (e : Ext) (reg : BitVec 3) (rm : RmField) (imm : Byte) (len : Nat)
    (write : Vec → Vec → Vec) (s : State) (r : Refusal) :
    runShuffle f p e reg rm imm len write s = .refused r ↔
      (s.mode = none ∧ r = .unsupportedMode) ∨
        ∃ m, s.mode = some m ∧ s.formFault f = none ∧ srcVal f m p e rm len s = .refused r := by
  constructor
  · intro h
    unfold runShuffle raise at h
    split at h
    · next hm => injection h with h; exact .inl ⟨hm, h.symm⟩
    · next m hm =>
      split at h
      · cases h
      · next hf =>
        split at h
        · cases h
        · next q hq => injection h with h; subst h; exact .inr ⟨m, hm, hf, hq⟩
        · cases h
  · rintro (⟨hm, rfl⟩ | ⟨m, hm, hf, hq⟩)
    · simp [runShuffle, hm]
    · simp [runShuffle, hm, hf, hq]

/-- How an instruction combines the old destination and the result `t`. -/
def writeOf (i : Instr) (s : State) : Vec → Vec → Vec :=
  match i with
  | .pshufhw .. => keepUpper
  | .vpshufhw128Vex2 .. | .vpshufhw128Vex3 .. | .vpshufhw256Vex2 .. | .vpshufhw256Vex3 .. => fun _ t => t
  | .vpshufhw128Evex _ _ _ z aaa _ _ _ => fun old t => maskWords .v128 old t (s.readMask aaa) aaa z
  | .vpshufhw256Evex _ _ _ z aaa _ _ _ => fun old t => maskWords .v256 old t (s.readMask aaa) aaa z
  | .vpshufhw512Evex _ _ _ z aaa _ _ _ => fun old t => maskWords .v512 old t (s.readMask aaa) aaa z

/-- Every meaning is an instance of the shared order of steps. -/
theorem exec_eq (i : Instr) (s : State) :
    exec i s = runShuffle i.form i.prefixes i.ext i.reg i.rm i.imm i.length (writeOf i s) s := by
  cases i <;> rfl

/-- What an instruction that completes does. -/
theorem exec_next (i : Instr) (s t : State) :
    exec i s = .next t ↔
      ∃ m v, s.mode = some m ∧ s.formFault i.form = none ∧
        srcVal i.form m i.prefixes i.ext i.rm i.length s = .ok v ∧
        t = (s.writeVec (instrDest i m)
              (writeOf i s (s.readVec (instrDest i m)) (shufHiVec i.form.vl v i.imm))).advance m i.length := by
  rw [exec_eq]; exact runShuffle_next ..

theorem exec_fault (i : Instr) (s : State) (φ : Fault) :
    exec i s = .fault φ ↔
      ∃ m x, s.mode = some m ∧
        (s.formFault i.form = some x ∨
          s.formFault i.form = none ∧ srcVal i.form m i.prefixes i.ext i.rm i.length s = .raised x) ∧
        φ = .exception (x.record s) := by
  rw [exec_eq]; exact runShuffle_fault ..

theorem exec_refused (i : Instr) (s : State) (r : Refusal) :
    exec i s = .refused r ↔
      (s.mode = none ∧ r = .unsupportedMode) ∨
        ∃ m, s.mode = some m ∧ s.formFault i.form = none ∧
          srcVal i.form m i.prefixes i.ext i.rm i.length s = .refused r := by
  rw [exec_eq]; exact runShuffle_refused ..

/-- The exceptions the state-dependent tests raise. -/
theorem State.formFault_cases (s : State) (f : Form) (x : Exception) (h : s.formFault f = some x) :
    (x = .ud ∧ (featurePresent f s.cfg.features && s.osEnabled f) = false) ∨
      (x = .nm ∧ (featurePresent f s.cfg.features && s.osEnabled f) = true ∧ s.cr0TS = true) := by
  unfold State.formFault at h
  split at h
  · next hb => injection h with h; exact .inl ⟨h.symm, by simpa only [Bool.not_eq_true'] using hb⟩
  · next hb =>
    split at h
    · next ht => right; simp_all
    · cases h

/-- The checks before translation raise `#GP(0)` or `#SS(0)` only. -/
theorem State.illegal_cases (s : State) (m : Mode) (seg : SegName) (ea linear : Addr) (n : Nat) (x : Exception)
    (h : s.illegal m seg ea linear n = some x) : x = .gp ∨ x = .ss := by
  cases m <;> simp only [State.illegal] at h
  · split at h
    · cases h
    · cases seg <;> simp_all [segmentException]
  · split at h
    · simp_all
    · split at h
      · cases h
      · cases seg <;> simp_all [segmentException]

theorem State.addressFault_cases (s : State) (m : Mode) (al : Bool) (seg : SegName) (ea linear : Addr) (n : Nat)
    (x : Exception) (h : s.addressFault m al seg ea linear n = some x) : x = .gp ∨ x = .ss := by
  simp only [State.addressFault] at h
  split at h
  · split at h
    · split at h <;> simp_all
    · simp_all
  · exact State.illegal_cases s m seg ea linear n x h

/-- What a memory read answers. -/
theorem State.memRead_cases (s : State) (m : Mode) (a : Addr) (n : Nat) :
    (s.translate m a n = .ok .ordinary ∧ s.memRead m a n = .ok (ofPieces 8 n (s.translatedByte m a n))) ∨
    (s.translate m a n = .ok .device ∧ s.memRead m a n = .refused .deviceMemory) ∨
    (s.translate m a n = .gp ∧ s.memRead m a n = .raised .gp) ∨
    (s.translate m a n = .ss ∧ s.memRead m a n = .raised .ss) ∨
    ∃ c b, s.translate m a n = .pf c b ∧ s.memRead m a n = .raised (.pf c b) := by
  cases h : s.translate m a n with
  | ok ty => cases ty <;> simp [State.memRead, h]
  | gp => simp [State.memRead, h]
  | ss => simp [State.memRead, h]
  | pf c b => simp [State.memRead, h]

/-- A source that can be obtained has the value `sourceValue`. -/
theorem srcVal_of_sourceOk (i : Instr) (m : Mode) (s : State) (h : sourceOk i m s = true) :
    srcVal i.form m i.prefixes i.ext i.rm i.length s = .ok (sourceValue i m s) := by
  cases hrm : i.rm with
  | reg n => simp only [srcVal, sourceValue, hrm]
  | mem fld =>
    simp only [sourceOk, hrm, Bool.and_eq_true, Bool.or_eq_true, beq_iff_eq, Option.isNone_iff_eq_none] at h
    obtain ⟨⟨hal, hil⟩, htr⟩ := h
    have haf : s.addressFault m (i.form == .leg) (instrPlace i m fld s).seg (instrPlace i m fld s).ea
        (instrPlace i m fld s).linear i.form.vl.bytes = none := by
      unfold State.addressFault
      simp only [hil]
      split
      · next hc => simp_all [aligned16]
      · rfl
    simp only [instrPlace] at haf htr
    simp only [srcVal, sourceValue, hrm, memSource, haf, State.memRead, htr, instrPlace]

/-- A ready instruction with an obtainable source completes. -/
theorem exec_of_ready (i : Instr) (s : State) (m : Mode) (hm : s.mode = some m) (hr : s.ready i.form = true)
    (hs : sourceOk i m s = true) :
    exec i s = .next ((s.writeVec (instrDest i m)
      (writeOf i s (s.readVec (instrDest i m)) (shufHiVec i.form.vl (sourceValue i m s) i.imm))).advance m i.length) :=
  (exec_next i s _).mpr ⟨m, sourceValue i m s, hm, (State.formFault_eq_none s i.form).mpr hr,
    srcVal_of_sourceOk i m s hs, rfl⟩

/-- An instruction that completes has read `sourceValue`. -/
theorem srcVal_of_next {i : Instr} {s t : State} {m : Mode} (hm : s.mode = some m) (h : exec i s = .next t) :
    srcVal i.form m i.prefixes i.ext i.rm i.length s = .ok (sourceValue i m s) := by
  obtain ⟨m', v', hm', -, hv', rfl⟩ := (exec_next i s t).mp h
  obtain rfl : m = m' := by simpa [hm] using hm'
  rw [hv']
  congr 1
  cases hrm : i.rm with
  | reg n =>
    simp only [srcVal, hrm] at hv'
    injection hv' with hv'
    simp only [sourceValue, hrm, hv']
  | mem fld =>
    simp only [srcVal, hrm, memSource] at hv'
    split at hv'
    · cases hv'
    · rcases State.memRead_cases s m (memPlace i.form m i.prefixes i.ext fld i.length s).linear i.form.vl.bytes with
        ⟨_, h⟩ | ⟨_, h⟩ | ⟨_, h⟩ | ⟨_, h⟩ | ⟨_, _, _, h⟩
      all_goals rw [h] at hv'
      all_goals first | (cases hv'; done) | skip
      injection hv' with hv'
      simp only [sourceValue, hrm, ← hv', instrPlace]

theorem ready_of_next {i : Instr} {s t : State} (h : exec i s = .next t) : s.ready i.form = true := by
  obtain ⟨_, _, _, hf, _, _⟩ := (exec_next i s t).mp h
  exact (State.formFault_eq_none s i.form).mp hf

/-- What an instruction that completes leaves in the vector registers. -/
theorem vec_of_next {i : Instr} {s t : State} {m : Mode} (hm : s.mode = some m) (h : exec i s = .next t) :
    t.vec = s.vec.set (instrDest i m) (lowBits s.cfg.maxvl
      (writeOf i s (s.readVec (instrDest i m)) (shufHiVec i.form.vl (sourceValue i m s) i.imm))) := by
  have hv := srcVal_of_next hm h
  obtain ⟨m', v', hm', -, hv', rfl⟩ := (exec_next i s t).mp h
  obtain rfl : m = m' := by simpa [hm] using hm'
  obtain rfl : sourceValue i m s = v' := by rw [hv] at hv'; injection hv'
  rfl

/-- A source raises a memory fault, and only from a memory form. -/
theorem srcVal_raised {f : Form} {m : Mode} {p : Prefixes} {e : Ext} {rm : RmField} {len : Nat} {s : State}
    {x : Exception} (h : srcVal f m p e rm len s = .raised x) :
    ∃ fld, rm = .mem fld ∧ (x = .gp ∨ x = .ss ∨ ∃ c a, x = .pf c a) := by
  unfold srcVal at h
  split at h
  · cases h
  · next fld =>
    refine ⟨fld, rfl, ?_⟩
    simp only [memSource] at h
    split at h
    · next y hy =>
      injection h with h
      subst h
      rcases State.addressFault_cases _ _ _ _ _ _ _ _ hy with h | h <;> simp [h]
    · rcases State.memRead_cases s m (memPlace f m p e fld len s).linear f.vl.bytes with
        ⟨_, h'⟩ | ⟨_, h'⟩ | ⟨_, h'⟩ | ⟨_, h'⟩ | ⟨c, b, _, h'⟩
      all_goals rw [h'] at h
      all_goals first | (cases h; done) | skip
      all_goals injection h with h; subst h; simp

/-- For an aligned legacy source, and any VEX or EVEX source, the check before translation is that of the address alone. -/
theorem addressFault_of_aligned {i : Instr} {s : State} {m : Mode} {fld : MemField}
    (hal : i.form = .leg → aligned16 (instrPlace i m fld s).linear = true) :
    s.addressFault m (i.form == .leg) (instrPlace i m fld s).seg (instrPlace i m fld s).ea (instrPlace i m fld s).linear
        i.form.vl.bytes =
      s.illegal m (instrPlace i m fld s).seg (instrPlace i m fld s).ea (instrPlace i m fld s).linear i.form.vl.bytes := by
  have : ((i.form == .leg) && (instrPlace i m fld s).linear.extractLsb' 0 4 != 0#4) = false := by
    by_cases h : i.form = .leg
    · have := hal h
      simp [aligned16] at this
      simp [this]
    · simp [h]
  simp [State.addressFault, this]

theorem writeOf_vex (i : Instr) (s : State) (h : i.form = .vex128 ∨ i.form = .vex256) :
    writeOf i s = fun _ t => t := by
  cases i <;> simp [Instr.form] at h <;> rfl

/-- Where the constants fit together, an encoding whose feature is present has `VL ≤ MAXVL` (R6, B11). -/
theorem vl_le_maxvl (s : State) (f : Form) (hw : s.cfg.wf = true) (hr : s.ready f = true) :
    f.vl.bits ≤ s.cfg.maxvl.bits := by
  have hfeat : featurePresent f s.cfg.features = true := by
    simp only [State.ready, Bool.and_eq_true] at hr; exact hr.1.1
  revert hw hfeat
  generalize s.cfg = c
  obtain ⟨mv, ⟨f1, f2, f3, f4, f5⟩, lw⟩ := c
  intro hw hfeat
  cases f <;> cases mv <;> simp_all [featurePresent, Config.wf, Form.vl, VecLen.bits]

/-- What no completed instruction touches. -/
theorem onlyVecAndRip (s : State) (d : Fin 32) (v : Vec) (m : Mode) (len : Nat) :
    OnlyVecAndRip d s ((s.writeVec d v).advance m len) where
  vec n hn := by
    rw [State.advance_vec]; exact State.writeVec_vec_other s d n v hn
  rest := rfl
  bytes _ := rfl

end Sys2Proof.Machine
end

