-- ==== Sys2Proof/Laws/PerInstr.lean ====
section
/-! SUPPORT. The per-instruction law of LAWS.json: an encoding has the length R112 gives it (spec/30_encoding.md). -/

namespace Sys2Proof.Laws.EncodeLength

def Statement (i : Instr) : Prop := (encode i).length = i.length

theorem pshufhw (p : Prefixes) (rex : Option Rex) (reg : BitVec 3) (rm : RmField) (imm : Byte) :
    Statement (.pshufhw p rex reg rm imm) := by
  cases rex <;>
    simp [Statement, encode, Instr.mandatory, Instr.form, encodeBody, Instr.length, Instr.headLength,
      Instr.prefixes, Instr.rm, encodeTail_length, Prefixes.length_encode] <;> omega

theorem vpshufhw128Vex2 (p : Prefixes) (r : Bool) (reg : BitVec 3) (rm : RmField) (imm : Byte) :
    Statement (.vpshufhw128Vex2 p r reg rm imm) := by
  simp [Statement, encode, Instr.mandatory, Instr.form, encodeBody, Instr.length, Instr.headLength,
    Instr.prefixes, Instr.rm, encodeTail_length, Prefixes.length_encode]; omega

theorem vpshufhw128Vex3 (p : Prefixes) (r x b w : Bool) (reg : BitVec 3) (rm : RmField) (imm : Byte) :
    Statement (.vpshufhw128Vex3 p r x b w reg rm imm) := by
  simp [Statement, encode, Instr.mandatory, Instr.form, encodeBody, Instr.length, Instr.headLength,
    Instr.prefixes, Instr.rm, encodeTail_length, Prefixes.length_encode]; omega

theorem vpshufhw256Vex2 (p : Prefixes) (r : Bool) (reg : BitVec 3) (rm : RmField) (imm : Byte) :
    Statement (.vpshufhw256Vex2 p r reg rm imm) := by
  simp [Statement, encode, Instr.mandatory, Instr.form, encodeBody, Instr.length, Instr.headLength,
    Instr.prefixes, Instr.rm, encodeTail_length, Prefixes.length_encode]; omega

theorem vpshufhw256Vex3 (p : Prefixes) (r x b w : Bool) (reg : BitVec 3) (rm : RmField) (imm : Byte) :
    Statement (.vpshufhw256Vex3 p r x b w reg rm imm) := by
  simp [Statement, encode, Instr.mandatory, Instr.form, encodeBody, Instr.length, Instr.headLength,
    Instr.prefixes, Instr.rm, encodeTail_length, Prefixes.length_encode]; omega

theorem vpshufhw128Evex (p : Prefixes) (e : Ext) (w z : Bool) (aaa : BitVec 3) (reg : BitVec 3) (rm : RmField)
    (imm : Byte) : Statement (.vpshufhw128Evex p e w z aaa reg rm imm) := by
  simp [Statement, encode, Instr.mandatory, Instr.form, encodeBody, evexBody, Instr.length, Instr.headLength,
    Instr.prefixes, Instr.rm, encodeTail_length, Prefixes.length_encode]; omega

theorem vpshufhw256Evex (p : Prefixes) (e : Ext) (w z : Bool) (aaa : BitVec 3) (reg : BitVec 3) (rm : RmField)
    (imm : Byte) : Statement (.vpshufhw256Evex p e w z aaa reg rm imm) := by
  simp [Statement, encode, Instr.mandatory, Instr.form, encodeBody, evexBody, Instr.length, Instr.headLength,
    Instr.prefixes, Instr.rm, encodeTail_length, Prefixes.length_encode]; omega

theorem vpshufhw512Evex (p : Prefixes) (e : Ext) (w z : Bool) (aaa : BitVec 3) (reg : BitVec 3) (rm : RmField)
    (imm : Byte) : Statement (.vpshufhw512Evex p e w z aaa reg rm imm) := by
  simp [Statement, encode, Instr.mandatory, Instr.form, encodeBody, evexBody, Instr.length, Instr.headLength,
    Instr.prefixes, Instr.rm, encodeTail_length, Prefixes.length_encode]; omega

end Sys2Proof.Laws.EncodeLength

namespace Sys2Proof

/-- An encoding has the length R112 gives it, whatever the instruction. -/
theorem length_encode (i : Instr) : (encode i).length = i.length := by
  cases i
  · exact Laws.EncodeLength.pshufhw ..
  · exact Laws.EncodeLength.vpshufhw128Vex2 ..
  · exact Laws.EncodeLength.vpshufhw128Vex3 ..
  · exact Laws.EncodeLength.vpshufhw256Vex2 ..
  · exact Laws.EncodeLength.vpshufhw256Vex3 ..
  · exact Laws.EncodeLength.vpshufhw128Evex ..
  · exact Laws.EncodeLength.vpshufhw256Evex ..
  · exact Laws.EncodeLength.vpshufhw512Evex ..

end Sys2Proof
end

