-- ==== Sys2Proof/Laws/Fetch.lean ====
section
/-! SUPPORT. What a step can do: the inversion of a step that goes on, the bytes the fetch reads,
and a stop at the first byte. -/

namespace Sys2Proof.Machine

/-- A step that goes on has run one decoded instruction. -/
theorem step_next {s t : State} (h : step s = .next t) :
    ∃ m i rest, s.debugArmed = false ∧ s.mode = some m ∧ decode m (s.fetch m).1 = .instr i rest ∧
      exec i s = .next t := by
  unfold step State.fetchDecode at h
  split at h
  · next i hi =>
    split at hi
    · cases hi
    · next hd =>
      split at hi
      · cases hi
      · next m hm =>
        split at hi <;> try cases hi
        next hdec => exact ⟨m, _, _, by simpa using hd, hm, hdec, h⟩
  · next o ho =>
    split at ho
    · injection ho with ho; subst ho; cases h
    · split at ho
      · injection ho with ho; subst ho; cases h
      · next m _ =>
        split at ho
        · cases ho
        · injection ho with ho; subst ho; cases h
        · injection ho with ho; subst ho; cases h
        · injection ho with ho
          subst ho
          unfold State.fetchFault at h
          split at h <;> cases h

/-- Bytes that lie fetchable in memory are what the fetch reads first. -/
theorem State.fetchFrom_eq (s : State) (m : Mode) : ∀ (bs : List Byte) (n i : Nat), bs.length ≤ n →
    (∀ k, k < bs.length →
      s.fetchStop m (i + k) = none ∧ some (s.readByte (s.fetchAddr m (i + k))) = bs[k]?) →
    ∃ rest, (s.fetchFrom m n i).1 = bs ++ rest
  | [], _, _, _, _ => ⟨_, rfl⟩
  | _ :: _, 0, _, h, _ => by simp at h
  | b :: bs, n + 1, i, h, hk => by
    obtain ⟨rest, hr⟩ := State.fetchFrom_eq s m bs n (i + 1) (by simpa using h) (fun k hk' => by
      have := hk (k + 1) (by simpa using hk')
      rw [show i + 1 + k = i + (k + 1) by omega]
      simpa using this)
    have h0 := hk 0 (by simp)
    simp at h0
    exact ⟨rest, by simp [State.fetchFrom, h0.1, hr, h0.2]⟩

/-- A fetch that stops at the first byte ends the step there (R199). -/
theorem step_of_fetchStop {s : State} {m : Mode} {r : FetchStop} (hd : s.debugArmed = false) (hm : s.mode = some m)
    (hr : s.fetchStop m 0 = some r) : step s = s.fetchFault (some r) := by
  have hf : s.fetch m = ([], some r) := by simp [State.fetch, maxLength, State.fetchFrom, hr]
  have short : decode m [] = .short := rfl
  simp [step, State.fetchDecode, hd, hm, hf, short]

end Sys2Proof.Machine
end

