-- ==== Sys2Proof/Laws/Memory.lean ====
section
/-! SUPPORT. Memory: a read after a write, and that every operation over memory keeps the canonical form. -/

namespace Sys2Proof.Machine

theorem Memory.wfFrom_mono : ∀ (m : Memory) (lo lo' : Nat), lo' ≤ lo → Memory.wfFrom lo m = true →
    Memory.wfFrom lo' m = true
  | [], _, _, _, _ => rfl
  | (k, v) :: t, lo, lo', h, hw => by
    simp only [Memory.wfFrom, Bool.and_eq_true, decide_eq_true_eq] at hw ⊢
    exact ⟨⟨⟨by omega, hw.1.1.2⟩, hw.1.2⟩, hw.2⟩

/-- Below the first address of a canonical memory nothing is listed. -/
theorem Memory.read_below : ∀ (m : Memory) (lo a : Nat), Memory.wfFrom lo m = true → a < lo →
    Memory.read m a = unlistedByte
  | [], _, _, _, _ => rfl
  | (k, v) :: t, lo, a, hw, h => by
    simp only [Memory.wfFrom, Bool.and_eq_true, decide_eq_true_eq] at hw
    have hk : ¬ k = a := by omega
    simp only [Memory.read, hk, if_false]
    exact Memory.read_below t (k + 1) a hw.2 (by omega)

/-- A write keeps the canonical form. -/
theorem Memory.wfFrom_write : ∀ (m : Memory) (lo a : Nat) (v : Byte), Memory.wfFrom lo m = true → lo ≤ a → a < 2 ^ 64 →
    Memory.wfFrom lo (Memory.write m a v) = true
  | [], lo, a, v, _, hlo, ha => by
    by_cases hv : v = unlistedByte
    · simp [Memory.write, hv, Memory.wfFrom]
    · simp [-Nat.reducePow, Memory.write, hv, Memory.wfFrom, hlo, ha]
  | (k, x) :: t, lo, a, v, hw, hlo, ha => by
    have hw' := hw
    simp only [Memory.wfFrom, Bool.and_eq_true, decide_eq_true_eq] at hw
    obtain ⟨⟨⟨h1, h2⟩, h3⟩, h4⟩ := hw
    simp only [Memory.write]
    by_cases hlt : a < k
    · by_cases hv : v = unlistedByte
      · simpa only [hlt, if_true, hv] using hw'
      · have h5 : a + 1 ≤ k := hlt
        have h3' : x ≠ unlistedByte := by simpa using h3
        simp [-Nat.reducePow, hlt, hv, Memory.wfFrom, hlo, ha, h2, h5, h4, h3']
    · by_cases heq : a = k
      · subst heq
        by_cases hv : v = unlistedByte
        · simp only [Nat.lt_irrefl, if_false, if_true, hv]
          exact Memory.wfFrom_mono t (a + 1) lo (by omega) h4
        · simp [-Nat.reducePow, hv, Memory.wfFrom, h1, h2, h4]
      · have h6 : k + 1 ≤ a := by omega
        simp only [hlt, if_false, heq, Memory.wfFrom, Bool.and_eq_true, decide_eq_true_eq]
        exact ⟨⟨⟨h1, h2⟩, h3⟩, Memory.wfFrom_write t (k + 1) a v h4 h6 ha⟩

theorem Memory.wf_write (m : Memory) (a : Nat) (v : Byte) (hw : m.wf = true) (ha : a < 2 ^ 64) :
    (m.write a v).wf = true :=
  Memory.wfFrom_write m 0 a v hw (Nat.zero_le a) ha

/-- What a read answers after a write. -/
theorem Memory.read_write_from : ∀ (m : Memory) (lo a b : Nat) (v : Byte), Memory.wfFrom lo m = true →
    Memory.read (Memory.write m a v) b = if b = a then v else Memory.read m b
  | [], lo, a, b, v, _ => by
    by_cases hv : v = unlistedByte
    · subst hv; simp [Memory.write, Memory.read]
    · by_cases hb : a = b
      · simp [Memory.write, hv, Memory.read, hb]
      · simp [Memory.write, hv, Memory.read, hb, Ne.symm hb]
  | (k, x) :: t, lo, a, b, v, hw => by
    simp only [Memory.wfFrom, Bool.and_eq_true, decide_eq_true_eq] at hw
    obtain ⟨⟨⟨h1, h2⟩, h3⟩, h4⟩ := hw
    simp only [Memory.write]
    by_cases hlt : a < k
    · have hka : ¬ k = a := by omega
      have hta := Memory.read_below t (k + 1) a h4 (by omega)
      by_cases hv : v = unlistedByte
      · by_cases hb : b = a
        · subst hb; simp [hlt, hv, Memory.read, hka, hta]
        · simp [hlt, hv, hb]
      · by_cases hb : b = a
        · subst hb; simp [hlt, hv, Memory.read]
        · simp [hlt, hv, Memory.read, hb, Ne.symm hb]
    · by_cases heq : a = k
      · subst heq
        have hta := Memory.read_below t (a + 1) a h4 (by omega)
        by_cases hv : v = unlistedByte
        · by_cases hb : b = a
          · subst hb; simp [hv, hta]
          · simp [hv, hb, Memory.read, Ne.symm hb]
        · by_cases hb : b = a
          · subst hb; simp [hv, Memory.read]
          · simp [hv, Memory.read, hb, Ne.symm hb]
      · have hka : ¬ k = a := fun e => heq e.symm
        have ih := Memory.read_write_from t (k + 1) a b v h4
        by_cases hb : k = b
        · subst hb
          simp [hlt, heq, Memory.read, hka]
        · simp [hlt, heq, Memory.read, hb, ih]

theorem Memory.read_write (m : Memory) (a b : Nat) (v : Byte) (hw : m.wf = true) :
    (m.write a v).read b = if b = a then v else m.read b :=
  Memory.read_write_from m 0 a b v hw

theorem Memory.read_write_same (m : Memory) (a : Nat) (v : Byte) (hw : m.wf = true) : (m.write a v).read a = v := by
  simp [Memory.read_write m a a v hw]

theorem Memory.read_write_other (m : Memory) (a b : Nat) (v : Byte) (hw : m.wf = true) (h : b ≠ a) :
    (m.write a v).read b = m.read b := by
  simp [Memory.read_write m a b v hw, h]

/-- The one operation over memory of the whole machine keeps the canonical form. -/
theorem State.storeByte_wf (s : State) (a : Addr) (v : Byte) (hw : Memory.wf s.mem = true) :
    Memory.wf (s.storeByte a v).mem = true :=
  Memory.wf_write s.mem a.toNat v hw a.isLt

theorem State.storeCode_wf (m : Mode) : ∀ (bs : List Byte) (s : State) (i : Nat), Memory.wf s.mem = true →
    Memory.wf (s.storeCode m bs i).mem = true
  | [], _, _, hw => hw
  | b :: bs, s, i, hw => State.storeCode_wf m bs _ (i + 1) (State.storeByte_wf s (s.fetchAddr m i) b hw)

theorem State.reset_mem_wf : Memory.wf State.reset.mem = true := rfl

end Sys2Proof.Machine
end

