-- ==== Sys2Proof/Laws/Prefixes.lean ====
section
/-! SUPPORT. The free order of prefixes (spec/30_encoding.md R83, R120, R121): the prefix loop reads any order of the prefixes a
`Seen` names as that `Seen`, and what it has read is such an order; and bytes
after those the decoder needs do not change its answer. -/

namespace Sys2Proof
open Machine

theorem isOverride_iff (b : Byte) : isOverride b = true ↔ ∃ n, b = segByte n := by
  constructor
  · intro h
    simp only [isOverride, List.contains_iff_mem, List.mem_cons, List.not_mem_nil, or_false] at h
    rcases h with rfl | rfl | rfl | rfl | rfl | rfl
    exacts [⟨.es, rfl⟩, ⟨.cs, rfl⟩, ⟨.ss, rfl⟩, ⟨.ds, rfl⟩, ⟨.fs, rfl⟩, ⟨.gs, rfl⟩]
  · rintro ⟨n, rfl⟩
    cases n <;> rfl

theorem prefixKind_segByte (n : SegName) : prefixKind (segByte n) = .segment n := by cases n <;> rfl

theorem prefixOrder_nil_iff (q : Seen) : prefixOrder [] q = true ↔ q = ⟨none, false, false, false⟩ := by
  obtain ⟨seg, a, f, l⟩ := q
  cases seg <;> cases a <;> cases f <;> cases l <;> simp [prefixOrder]

/-- The first byte of an order is one of its prefixes, and the others are an order of the rest; a LOCK byte may come again. -/
theorem prefixOrder_cons (b : Byte) (pre : List Byte) (q : Seen) :
    prefixOrder (b :: pre) q = true ↔
      (∃ n, b = segByte n ∧ q.seg = some n ∧ prefixOrder pre { q with seg := none } = true) ∨
      (b = 0x67 ∧ q.a67 = true ∧ prefixOrder pre { q with a67 := false } = true) ∨
      (b = 0xF3 ∧ q.f3 = true ∧ prefixOrder pre { q with f3 := false } = true) ∨
      (b = 0xF0 ∧ q.lock = true ∧ ∃ l, prefixOrder pre { q with lock := l } = true) := by
  obtain ⟨seg, a, f, l⟩ := q
  by_cases ho : isOverride b = true
  · obtain ⟨n, rfl⟩ := (isOverride_iff b).mp ho
    have h1 : ¬ segByte n = 0x67#8 := by cases n <;> decide
    have h2 : ¬ segByte n = 0xF3#8 := by cases n <;> decide
    have h3 : ¬ segByte n = 0xF0#8 := by cases n <;> decide
    have hi : ∀ k, segByte n = segByte k ↔ k = n := fun k => by cases n <;> cases k <;> decide
    cases seg <;> simp [prefixOrder, ho, h1, h2, Ne.symm h3, h3, hi, and_assoc, and_left_comm]
  · have hn : ∀ n, ¬ b = segByte n := fun n h => ho ((isOverride_iff b).mpr ⟨n, h⟩)
    by_cases h1 : b = 0x67#8
    · subst h1
      cases a <;> simp [prefixOrder, hn, and_assoc, isOverride]
    · by_cases h2 : b = 0xF3#8
      · subst h2
        cases f <;> simp [prefixOrder, hn, and_assoc, isOverride]
      · by_cases h3 : b = 0xF0#8
        · subst h3
          cases l <;> simp [prefixOrder, hn, and_assoc, isOverride]
        · simp [prefixOrder, ho, hn, h1, h2, h3]

/-- Without LOCK an order has one byte for each of its prefixes. -/
theorem prefixOrder_length : ∀ (pre : List Byte) (q : Seen), prefixOrder pre q = true → q.lock = false →
    pre.length = q.seg.toList.length + q.a67.toNat + q.f3.toNat
  | [], q, h, _ => by rw [prefixOrder_nil_iff] at h; subst h; rfl
  | b :: pre, ⟨seg, a, f, l⟩, h, hl => by
    rcases (prefixOrder_cons b pre _).mp h with ⟨n, -, hq, hp⟩ | ⟨-, hq, hp⟩ | ⟨-, hq, hp⟩ | ⟨-, hq, -⟩
    · have := prefixOrder_length pre _ hp hl; simp only at hq this; subst hq; simp at this ⊢; omega
    · have := prefixOrder_length pre _ hp hl; simp only at hq this; subst hq; simp at this ⊢; omega
    · have := prefixOrder_length pre _ hp hl; simp only at hq this; subst hq; simp at this ⊢; omega
    · rw [hl] at hq; cases hq

/-- What has been read after `q0`, when the prefixes of `q` follow. -/
def Seen.add (q0 q : Seen) : Seen := ⟨q0.seg.or q.seg, q0.a67 || q.a67, q0.f3 || q.f3, q0.lock || q.lock⟩

/-- `q` repeats no prefix of `q0` that may not be repeated. -/
def Seen.apart (q0 q : Seen) : Prop :=
  (q0.seg = none ∨ q.seg = none) ∧ (q0.a67 = false ∨ q.a67 = false) ∧ (q0.f3 = false ∨ q.f3 = false)

/-- The prefix loop reads any order of the prefixes of `q` as `q`. -/
theorem scanPrefixes_add (rest : List Byte) : ∀ (pre : List Byte) (q0 q : Seen), prefixOrder pre q = true → q0.apart q →
    scanPrefixes q0 (pre ++ rest) = scanPrefixes (q0.add q) rest
  | [], q0, q, h, _ => by
    rw [prefixOrder_nil_iff] at h
    simp [h, Seen.add]
  | b :: pre, q0, ⟨seg, a, f, l⟩, h, ha => by
    obtain ⟨seg0, a0, f0, l0⟩ := q0
    simp only [Seen.apart] at ha
    rcases (prefixOrder_cons b pre _).mp h with ⟨n, rfl, hq, hp⟩ | ⟨rfl, hq, hp⟩ | ⟨rfl, hq, hp⟩ | ⟨rfl, hq, l', hp⟩ <;>
      simp only at hq hp <;> subst hq <;>
      have ih := fun q0 => scanPrefixes_add rest pre q0 _ hp
    · obtain rfl : seg0 = none := by simpa using ha.1
      simpa [scanPrefixes, prefixKind_segByte, Seen.add, Seen.apart, ha]
        using ih ⟨some n, a0, f0, l0⟩
    · obtain rfl : a0 = false := by simpa using ha.2.1
      simpa [scanPrefixes, show prefixKind 0x67#8 = .address from rfl, Seen.add, Seen.apart, ha]
        using ih ⟨seg0, true, f0, l0⟩
    · obtain rfl : f0 = false := by simpa using ha.2.2
      simpa [scanPrefixes, show prefixKind 0xF3#8 = .f3 from rfl, Seen.add, Seen.apart, ha]
        using ih ⟨seg0, a0, true, l0⟩
    · simpa [scanPrefixes, show prefixKind 0xF0#8 = .lock from rfl, Seen.add, Seen.apart, ha]
        using ih ⟨seg0, a0, f0, true⟩

theorem scanPrefixes_order {pre : List Byte} {q : Seen} (h : prefixOrder pre q = true) (rest : List Byte) :
    scanPrefixes ⟨none, false, false, false⟩ (pre ++ rest) = scanPrefixes q rest := by
  simpa [Seen.add] using scanPrefixes_add rest pre ⟨none, false, false, false⟩ q h (by simp [Seen.apart])

/-- The loop stops at a byte that is no prefix. -/
theorem scanPrefixes_none (q : Seen) {b : Byte} (bs : List Byte) (h : prefixKind b = .none) :
    scanPrefixes q (b :: bs) = .done q (b :: bs) := by simp [scanPrefixes, h]

/-- A prefix byte is told by its kind. -/
theorem prefixKind_inv (b : Byte) :
    (∀ n, prefixKind b = .segment n → b = segByte n) ∧ (prefixKind b = .address → b = 0x67) ∧
    (prefixKind b = .f3 → b = 0xF3) ∧ (prefixKind b = .lock → b = 0xF0) := by
  have h : (List.finRange 256).all fun b =>
    match prefixKind (BitVec.ofFin b) with
    | .segment n => decide (BitVec.ofFin b = segByte n)
    | .address => decide (BitVec.ofFin b = 0x67#8)
    | .f3 => decide (BitVec.ofFin b = 0xF3#8)
    | .lock => decide (BitVec.ofFin b = 0xF0#8)
    | .other => true
    | .none => true := by decide +kernel
  have := List.all_eq_true.mp h b.toFin (List.mem_finRange _)
  simp at this
  refine ⟨fun n hn => ?_, fun hn => ?_, fun hn => ?_, fun hn => ?_⟩ <;> rw [hn] at this <;> simpa using this

/-- What the loop has read is an order of the prefixes it answers. -/
theorem scanPrefixes_done_add : ∀ (bs rest : List Byte) (q0 q1 : Seen), scanPrefixes q0 bs = .done q1 rest →
    ∃ pre q, bs = pre ++ rest ∧ prefixOrder pre q = true ∧ q1 = q0.add q ∧ q0.apart q ∧
      ∃ b tl, rest = b :: tl ∧ prefixKind b = .none
  | [], _, _, _, h => by simp [scanPrefixes] at h
  | b :: bs, rest, ⟨seg0, a0, f0, l0⟩, q1, h => by
    obtain ⟨k1, k2, k3, k4⟩ := prefixKind_inv b
    unfold scanPrefixes at h
    split at h
    · next n hk =>
      obtain rfl := k1 n hk
      split at h
      · cases h
      · next hs =>
      obtain ⟨pre, ⟨seg, a, f, l⟩, rfl, hp, rfl, ha, hr⟩ := scanPrefixes_done_add bs rest _ q1 h
      simp [Seen.apart] at ha hs
      obtain ⟨rfl, ha⟩ := ha
      subst hs
      exact ⟨segByte n :: pre, ⟨some n, a, f, l⟩, rfl, (prefixOrder_cons ..).mpr (.inl ⟨n, rfl, rfl, hp⟩),
        by simp [Seen.add], by simp [Seen.apart, ha], hr⟩
    · next hk =>
      obtain rfl := k2 hk
      split at h
      · cases h
      · next hs =>
      obtain ⟨pre, ⟨seg, a, f, l⟩, rfl, hp, rfl, ha, hr⟩ := scanPrefixes_done_add bs rest _ q1 h
      simp [Seen.apart] at ha hs
      obtain ⟨ha1, rfl, ha⟩ := ha
      subst hs
      exact ⟨0x67 :: pre, ⟨seg, true, f, l⟩, rfl, (prefixOrder_cons ..).mpr (.inr (.inl ⟨rfl, rfl, hp⟩)),
        by simp [Seen.add], by simp [Seen.apart, ha, ha1], hr⟩
    · next hk =>
      obtain rfl := k3 hk
      split at h
      · cases h
      · next hs =>
      obtain ⟨pre, ⟨seg, a, f, l⟩, rfl, hp, rfl, ha, hr⟩ := scanPrefixes_done_add bs rest _ q1 h
      simp [Seen.apart] at ha hs
      obtain ⟨ha1, ha2, rfl⟩ := ha
      subst hs
      exact ⟨0xF3 :: pre, ⟨seg, a, true, l⟩, rfl, (prefixOrder_cons ..).mpr (.inr (.inr (.inl ⟨rfl, rfl, hp⟩))),
        by simp [Seen.add], by simp [Seen.apart, ha2, ha1], hr⟩
    · next hk =>
      obtain rfl := k4 hk
      obtain ⟨pre, ⟨seg, a, f, l⟩, rfl, hp, rfl, ha, hr⟩ := scanPrefixes_done_add bs rest _ q1 h
      exact ⟨0xF0 :: pre, ⟨seg, a, f, true⟩, rfl, (prefixOrder_cons ..).mpr (.inr (.inr (.inr ⟨rfl, rfl, l, hp⟩))),
        by simp [Seen.add], ha, hr⟩
    · cases h
    · next hk =>
      injection h with h1 h2
      subst h1; subst h2
      exact ⟨[], ⟨none, false, false, false⟩, rfl, rfl, by simp [Seen.add], by simp [Seen.apart], b, bs, rfl, hk⟩

theorem scanPrefixes_done {bs rest : List Byte} {q : Seen}
    (h : scanPrefixes ⟨none, false, false, false⟩ bs = .done q rest) :
    ∃ pre, bs = pre ++ rest ∧ prefixOrder pre q = true ∧ ∃ b tl, rest = b :: tl ∧ prefixKind b = .none := by
  obtain ⟨pre, q', h1, h2, rfl, -, h3⟩ := scanPrefixes_done_add bs rest _ _ h
  exact ⟨pre, h1, by simpa [Seen.add] using h2, h3⟩

/-- The encoder's prefixes are one order of the instruction's. -/
theorem prefixOrder_encode (i : Instr) : prefixOrder (encodePrefixes i.prefixes ++ i.mandatory) (instrPrefixes i) = true := by
  simp only [instrPrefixes, Instr.mandatory]
  obtain ⟨seg, a67⟩ := i.prefixes
  cases i.form <;> cases a67 <;> rcases seg with _ | n <;> first | rfl | (cases n <;> rfl)

/-! ### The decoder around the prefixes -/

/-- The rest of an encoding starts with no prefix. -/
theorem prefixKind_encodeBody (i : Instr) : ∃ b bs, encodeBody i = b :: bs ∧ prefixKind b = .none := by
  cases i with
  | pshufhw p rex reg rm imm =>
    cases rex with
    | none => exact ⟨_, _, rfl, by decide⟩
    | some r => exact ⟨_, _, rfl, prefixKind_rexByte r.w r.r r.x r.b⟩
  | _ => exact ⟨_, _, rfl, by decide⟩

/-- The decoder on any order of prefixes before the rest of an encoding. -/
theorem decode_order_encodeBody {m : Mode} {pre : List Byte} {q : Seen} (hp : prefixOrder pre q = true) (i : Instr)
    (rest : List Byte) : decode m (pre ++ encodeBody i ++ rest) = decodeAfterPrefixes m q (encodeBody i ++ rest) := by
  obtain ⟨b, bs, hb, hk⟩ := prefixKind_encodeBody i
  rw [List.append_assoc, decode, scanPrefixes_order hp, hb, List.cons_append, scanPrefixes_none q _ hk]

/-- The admitted set, field by field (R120). -/
theorem Instr.wf_of {m : Mode} {i : Instr} (hrm : i.rm.wf = true) (hrex : i.rexOk m = true)
    (hext : m = .m32 → i.ext = ⟨false, false, false, false⟩) (h67 : ¬ (m = .m32 ∧ i.prefixes.a67 = true))
    (hmask : i.maskOk = true) : i.wf m = true := by
  cases m <;> simp_all [Instr.wf, Instr.extOk, Instr.addressOk]

/-- What a format answers as an instruction is of the admitted set, was read after just its prefixes,
and its encoding is what was read (R120). -/
theorem decodeFormat_inv {m : Mode} {q : Seen} {rex : Option Rex} {bs rest : List Byte} {i : Instr}
    (h : decodeFormat m q rex bs = .instr i rest) (hr : rex.isSome = true → m = .m64) :
    i.wf m = true ∧ q = instrPrefixes i ∧
      encodeBody i ++ rest = rex.toList.map rexByte ++ bs := by
  obtain ⟨seg, a67, f3, lock⟩ := q
  cases bs with
  | nil => cases h
  | cons b bs =>
  dsimp only [decodeFormat] at h
  split at h
  · next hb =>
    subst hb
    unfold decodeLeg at h
    split at h
    · cases h
    next op bs =>
    split at h
    · cases h
    next hop =>
    obtain ⟨hb, -, h67, reg, rm, imm, ht, rfl⟩ := finishDecode_inv h
    obtain ⟨hw, rfl⟩ := takeTail_inv ht
    simp at hop hb
    obtain ⟨rfl, rfl⟩ := hop
    subst hb
    refine ⟨Instr.wf_of hw ?_ ?_ h67 rfl, rfl, by cases rex <;> simp [encodeBody, encodeTail]⟩
    · cases rex <;> simp [Instr.rexOk, hr]
    · rintro rfl
      cases rex with
      | none => rfl
      | some r => simp at hr
  split at h
  · next hb =>
    subst hb
    unfold decodeVex2 at h
    split at h
    · cases h
    next v bs =>
    split at h
    · cases h
    next hv =>
    split at h
    · cases h
    next op bs =>
    split at h
    · split at h <;> cases h
    next hpp =>
    obtain ⟨hb, -, h67, reg, rm, imm, ht, rfl⟩ := finishDecode_inv h
    obtain ⟨hw, rfl⟩ := takeTail_inv ht
    simp at hb hpp
    obtain ⟨⟨⟨rfl, rfl⟩, rfl⟩, hvv⟩ := hb
    obtain ⟨hpp, rfl⟩ := hpp
    have hbyte := vexByte_eq v hpp hvv
    have he : m = .m32 → v.getLsbD 7 = true := fun hm => bit7_of_fieldHi2 v (by by_contra h; exact hv ⟨hm, h⟩)
    cases hl : v.getLsbD 2 <;> rw [hl] at hbyte
    all_goals
      exact ⟨Instr.wf_of hw rfl (fun hm => by simp [Instr.ext, he hm, -BitVec.getLsbD_eq_getElem]) h67 rfl, rfl,
        by simp [encodeBody, encodeTail, hbyte, -BitVec.getLsbD_eq_getElem]⟩
  split at h
  · next hb =>
    subst hb
    unfold decodeVex3 at h
    split at h
    · cases h
    next v bs =>
    split at h
    · cases h
    split at h
    rotate_left
    · cases h
    next v2 op bs =>
    split at h
    · split at h <;> cases h
    next hpp =>
    obtain ⟨hb, hrej, h67, reg, rm, imm, ht, rfl⟩ := finishDecode_inv h
    obtain ⟨hw, rfl⟩ := takeTail_inv ht
    simp at hb hpp
    obtain ⟨⟨⟨rfl, rfl⟩, rfl⟩, hvv⟩ := hb
    obtain ⟨⟨hmap, hpp⟩, rfl⟩ := hpp
    have hbyte := vexByte_eq v2 hpp hvv
    have hbyte1 := vex3Byte_eq v hmap
    have he : m = .m32 → (!v.getLsbD 7 || !v.getLsbD 6 || !v.getLsbD 5) = false := by
      rintro rfl
      by_contra hc
      simp only [Bool.not_eq_false] at hc
      simp [hc, -BitVec.getLsbD_eq_getElem] at hrej
    simp only [Bool.or_eq_false_iff] at he
    cases hl : v2.getLsbD 2 <;> rw [hl] at hbyte
    all_goals
      exact ⟨Instr.wf_of hw rfl (fun hm => by simp [Instr.ext, he hm, -BitVec.getLsbD_eq_getElem]) h67 rfl, rfl,
        by simp [encodeBody, encodeTail, hbyte, hbyte1, -BitVec.getLsbD_eq_getElem]⟩
  split at h
  · next hb =>
    subst hb
    unfold decodeEvex at h
    split at h
    · cases h
    next p0 bs =>
    split at h
    · cases h
    split at h
    rotate_left
    · cases h
    next p1 p2 op bs =>
    split at h
    · split at h <;> cases h
    next hpp =>
    obtain ⟨hb, hrej, h67, reg, rm, imm, ht, rfl⟩ := finishDecode_inv h
    obtain ⟨hw, rfl⟩ := takeTail_inv ht
    simp [evexFieldsBad, -BitVec.getLsbD_eq_getElem] at hb hpp
    obtain ⟨⟨⟨rfl, rfl⟩, rfl⟩, ⟨⟨⟨⟨h02, hvv⟩, h12⟩, hll⟩, hbb⟩, hv'⟩ := hb
    obtain ⟨⟨hmm, hpp⟩, rfl⟩ := hpp
    have hb0 := evexP0_eq p0 hmm h02
    have hb1 := evexP1_eq p1 hpp hvv h12
    have hb2 := evexP2_eq p2 hbb hv'
    split at hrej
    · cases hrej
    next hz =>
    have hz : (!p2.getLsbD 7 || p2.extractLsb' 0 3 != 0#3) = true := by
      revert hz; cases p2.getLsbD 7 <;> simp [bne]
    have he : m = .m32 → (!p0.getLsbD 4 || !p0.getLsbD 7 || !p0.getLsbD 6 || !p0.getLsbD 5) = false := by
      rintro rfl
      by_contra hc
      simp only [Bool.not_eq_false] at hc
      simp [hc, -BitVec.getLsbD_eq_getElem] at hrej
    simp only [Bool.or_eq_false_iff] at he
    have hx : m = .m32 → (⟨!p0.getLsbD 4, !p0.getLsbD 7, !p0.getLsbD 6, !p0.getLsbD 5⟩ : Ext) = ⟨false, false, false, false⟩ :=
      fun hm => by simp only [he hm]
    by_cases h0 : p2.extractLsb' 5 2 = 0#2
    · rw [h0] at hb2
      simp only [if_pos h0]
      exact ⟨Instr.wf_of hw rfl hx h67 hz, rfl,
          by simp [encodeBody, evexBody, encodeTail, hb0, hb1, hb2, -BitVec.getLsbD_eq_getElem]⟩
    · by_cases h1 : p2.extractLsb' 5 2 = 1#2
      · rw [h1] at hb2
        simp only [if_neg h0, if_pos h1]
        exact ⟨Instr.wf_of hw rfl hx h67 hz, rfl,
          by simp [encodeBody, evexBody, encodeTail, hb0, hb1, hb2, -BitVec.getLsbD_eq_getElem]⟩
      · have h2 := (by decide : ∀ m : BitVec 2, m ≠ 3#2 → ¬ m = 0#2 → ¬ m = 1#2 → m = 2#2) _ hll h0 h1
        rw [h2] at hb2
        simp only [if_neg h0, if_neg h1]
        exact ⟨Instr.wf_of hw rfl hx h67 hz, rfl,
          by simp [encodeBody, evexBody, encodeTail, hb0, hb1, hb2, -BitVec.getLsbD_eq_getElem]⟩
  · cases h

/-! ### More bytes after an answer -/

/-- The answer with more bytes after those it left. -/
def DecodeResult.extend (more : List Byte) : DecodeResult → DecodeResult
  | .instr i rest => .instr i (rest ++ more)
  | .ud => .ud
  | .reject r => .reject r
  | .short => .short

theorem takeDisp32_append {bs rest : List Byte} {d : BitVec 32} (h : takeDisp32 bs = some (d, rest)) (more : List Byte) :
    takeDisp32 (bs ++ more) = some (d, rest ++ more) := by
  rw [takeDisp32_inv h, List.append_assoc, takeDisp32_encode]

theorem takeTail_append {bs rest : List Byte} {reg : BitVec 3} {rm : RmField} {imm : Byte}
    (h : takeTail bs = some (reg, rm, imm, rest)) (more : List Byte) :
    takeTail (bs ++ more) = some (reg, rm, imm, rest ++ more) := by
  obtain ⟨hw, rfl⟩ := takeTail_inv h
  rw [List.append_assoc, List.cons_append, takeTail_encode _ _ _ hw]

theorem extend_ite {more : List Byte} {c : Prop} [Decidable c] {x y x' y' : DecodeResult}
    (h : (if c then x else y) ≠ .short) (hx : x ≠ .short → x' = x.extend more) (hy : y ≠ .short → y' = y.extend more) :
    (if c then x' else y') = (if c then x else y).extend more := by
  by_cases hc : c
  · rw [if_pos hc] at h
    rw [if_pos hc, if_pos hc, hx h]
  · rw [if_neg hc] at h
    rw [if_neg hc, if_neg hc, hy h]

theorem finishDecode_append {more : List Byte} {m : Mode} {q : Seen} {bad : Bool} {rej : Option RejectReason}
    {build : BitVec 3 → RmField → Byte → Instr} {bs : List Byte} (h : finishDecode m q bad rej build bs ≠ .short) :
    finishDecode m q bad rej build (bs ++ more) = (finishDecode m q bad rej build bs).extend more := by
  refine extend_ite h (fun h => extend_ite h (fun _ => rfl) fun h => ?_) fun h => ?_
  · cases ht : takeTail bs with
    | none => rw [ht] at h; exact absurd rfl h
    | some x => obtain ⟨reg, rm, imm, rest⟩ := x; rw [takeTail_append ht]; rfl
  · cases rej with
    | some r => rfl
    | none =>
      refine extend_ite h (fun _ => rfl) fun h => ?_
      cases ht : takeTail bs with
      | none => rw [ht] at h; exact absurd rfl h
      | some x => obtain ⟨reg, rm, imm, rest⟩ := x; rw [takeTail_append ht]; rfl

theorem decodeLeg_append {more : List Byte} {m : Mode} {q : Seen} {rex : Option Rex} : ∀ {bs : List Byte},
    decodeLeg m q rex bs ≠ .short → decodeLeg m q rex (bs ++ more) = (decodeLeg m q rex bs).extend more
  | [], h => absurd rfl h
  | _ :: _, h => extend_ite h (fun _ => rfl) finishDecode_append

theorem decodeVex2_append {more : List Byte} {m : Mode} {q : Seen} {x : Bool} : ∀ {bs : List Byte},
    decodeVex2 m q x bs ≠ .short → decodeVex2 m q x (bs ++ more) = (decodeVex2 m q x bs).extend more
  | [], h => absurd rfl h
  | [_], h => extend_ite h (fun _ => rfl) fun h => absurd rfl h
  | _ :: _ :: _, h => extend_ite h (fun _ => rfl) fun h =>
    extend_ite h (fun h => extend_ite h (fun _ => rfl) fun _ => rfl) finishDecode_append

theorem decodeVex3_append {more : List Byte} {m : Mode} {q : Seen} {x : Bool} : ∀ {bs : List Byte},
    decodeVex3 m q x bs ≠ .short → decodeVex3 m q x (bs ++ more) = (decodeVex3 m q x bs).extend more
  | [], h => absurd rfl h
  | [_], h => extend_ite h (fun _ => rfl) fun h => absurd rfl h
  | [_, _], h => extend_ite h (fun _ => rfl) fun h => absurd rfl h
  | _ :: _ :: _ :: _, h => extend_ite h (fun _ => rfl) fun h =>
    extend_ite h (fun h => extend_ite h (fun _ => rfl) fun _ => rfl) finishDecode_append

theorem decodeEvex_append {more : List Byte} {m : Mode} {q : Seen} {x : Bool} : ∀ {bs : List Byte},
    decodeEvex m q x bs ≠ .short → decodeEvex m q x (bs ++ more) = (decodeEvex m q x bs).extend more
  | [], h => absurd rfl h
  | [_], h => extend_ite h (fun _ => rfl) fun h => absurd rfl h
  | [_, _], h => extend_ite h (fun _ => rfl) fun h => absurd rfl h
  | [_, _, _], h => extend_ite h (fun _ => rfl) fun h => absurd rfl h
  | _ :: _ :: _ :: _ :: _, h => extend_ite h (fun _ => rfl) fun h =>
    extend_ite h (fun h => extend_ite h (fun _ => rfl) fun _ => rfl) finishDecode_append

theorem decodeFormat_append {more : List Byte} {m : Mode} {q : Seen} {rex : Option Rex} : ∀ {bs : List Byte},
    decodeFormat m q rex bs ≠ .short → decodeFormat m q rex (bs ++ more) = (decodeFormat m q rex bs).extend more
  | [], h => absurd rfl h
  | _ :: _, h => extend_ite h decodeLeg_append fun h => extend_ite h decodeVex2_append fun h =>
    extend_ite h decodeVex3_append fun h => extend_ite h decodeEvex_append fun _ => rfl

theorem scanPrefixes_append : ∀ (bs : List Byte) (q : Seen), scanPrefixes q bs ≠ .short → ∀ more,
    scanPrefixes q (bs ++ more) = match scanPrefixes q bs with
      | .done q rest => .done q (rest ++ more)
      | .reject r => .reject r
      | .short => .short
  | [], _, h, _ => absurd rfl h
  | b :: bs, q, h, more => by
    rw [List.cons_append]
    unfold scanPrefixes at h ⊢
    cases hk : prefixKind b <;> simp only [hk] at h ⊢
    · by_cases hc : q.seg.isSome = true
      · simp only [if_pos hc]
      · simp only [if_neg hc] at h ⊢
        exact scanPrefixes_append bs _ h more
    · by_cases hc : q.a67 = true
      · simp only [if_pos hc]
      · simp only [if_neg hc] at h ⊢
        exact scanPrefixes_append bs _ h more
    · by_cases hc : q.f3 = true
      · simp only [if_pos hc]
      · simp only [if_neg hc] at h ⊢
        exact scanPrefixes_append bs _ h more
    · exact scanPrefixes_append bs _ h more
    · rfl

/-- What the decoder answers, once it has bytes enough, does not depend on the bytes that follow. -/
theorem decode_append {more : List Byte} {m : Mode} {bs : List Byte} (h : decode m bs ≠ .short) :
    decode m (bs ++ more) = (decode m bs).extend more := by
  have hs : scanPrefixes ⟨none, false, false, false⟩ bs ≠ .short := fun e => h (by simp [decode, e])
  unfold decode at h ⊢
  rw [scanPrefixes_append bs _ hs]
  cases he : scanPrefixes ⟨none, false, false, false⟩ bs with
  | short => exact absurd he hs
  | reject r => rfl
  | done q rest =>
    rw [he] at h
    obtain ⟨-, -, -, b, tl, rfl, -⟩ := scanPrefixes_done he
    exact extend_ite h decodeFormat_append decodeFormat_append

end Sys2Proof
end

