-- ==== Sys2Proof/Machine/Run.lean ====
section
/-! DEFINITION. The run of a program (spec/70_reset_and_hazards.md R226): a finite byte string placed at a base address, run from
there, with its ends. -/

namespace Sys2Proof.Machine

/-- The three ends of a run (R226, decision D19). -/
inductive RunEnd where
  | success (s : State)
  | fault (f : Fault)
  | refused (r : Refusal)
  deriving DecidableEq, Repr

/-- The byte string placed at `base`, with `rip = base` (R226). -/
def State.place (s : State) (m : Mode) (base : Addr) (program : List Byte) : State :=
  ({ s with rip := base } : State).storeCode m program 0

/-- No `rip` from the first byte of a program of `len` bytes at `rip` to its end leaves the range of R28, the end included; in `M32`
`rip` has 32 bits (decision D6; assumption 14). -/
def State.programFits (s : State) (m : Mode) (len : Nat) : Bool :=
  s.ip m == s.rip && (List.range (len + 1)).all (s.ripOk m)

/-- The program's bytes end inside the instruction at `rip`: the `left` bytes that remain of it are fetched, are fewer than an
instruction can have, and do not yet tell what they are. What memory holds after them is not asked (R17, R226; assumption 38). -/
def State.straddles (s : State) (m : Mode) (left : Nat) : Bool :=
  decide (left < maxLength) && decide (left ≤ (s.fetch m).1.length) && decode m ((s.fetch m).1.take left) == .short

/-- Steps until `rip = finish`, at most `fuel` of them, refused where the program's bytes end inside an instruction (decision D19:
a run that does not reach the end is `Fault` or `Refused`). Fuel of the distance to `finish` is never used up before the end,
since an instruction has at least one byte (`runTo_fuel`). -/
def runTo (m : Mode) (finish : Addr) : Nat → State → RunEnd
  | 0, s => if s.rip = finish then .success s else .refused .programEnd
  | fuel + 1, s =>
    if s.rip = finish then .success s
    else if s.straddles m (finish - s.rip).toNat then .refused .programEnd
    else match step s with
      | .next t => runTo m finish fuel t
      | .fault f => .fault f
      | .refused r => .refused r

/-- The run of R226 from a launch state: a launch the rules refuse (R8, R214, D6) is refused, else the program is placed at `base` and
run until `rip` is the address after it. -/
def runProgram (s : State) (base : Addr) (program : List Byte) : RunEnd :=
  if s.debugArmed then .refused .debugArmed
  else match s.mode with
    | none => .refused .unsupportedMode
    | some m =>
      if ({ s with rip := base } : State).programFits m program.length then
        runTo m (base + BitVec.ofNat 64 program.length) program.length (s.place m base program)
      else .refused .instructionPointer

end Sys2Proof.Machine
end

