-- ==== Sys2Proof/Laws/Run.lean ====
section
/-! SUPPORT. The run of a program (spec/70_reset_and_hazards.md R226): placing it, its steps staying within it, its ends. -/

namespace Sys2Proof.Machine

/-- Placing a program keeps memory in its canonical form. -/
theorem State.place_wf (s : State) (m : Mode) (base : Addr) (program : List Byte) (hw : Memory.wf s.mem = true) :
    Memory.wf (s.place m base program).mem = true :=
  State.storeCode_wf m program _ 0 hw

/-- A fetch answers at most as many bytes as it is asked for. -/
theorem fetchFrom_length (s : State) (m : Mode) : ∀ n i, (s.fetchFrom m n i).1.length ≤ n
  | 0, _ => Nat.le_refl 0
  | n + 1, i => by
    unfold State.fetchFrom
    split
    · exact Nat.zero_le _
    · exact Nat.succ_le_succ (fetchFrom_length s m n (i + 1))

/-- An instruction is not longer than the bytes it was decoded from (R112). -/
theorem length_le_of_decode {m : Mode} {bs rest : List Byte} {i : Instr} (h : decode m bs = .instr i rest) :
    i.length ≤ bs.length := by
  unfold decode at h
  cases hs : scanPrefixes ⟨none, false, false, false⟩ bs with
  | short => rw [hs] at h; cases h
  | reject r => rw [hs] at h; cases h
  | done q r =>
    rw [hs] at h
    obtain ⟨pre, rfl, hp, b, tl, rfl, -⟩ := scanPrefixes_done hs
    have key : ∀ rex : Option Rex, ∀ bs, decodeFormat m q rex bs = .instr i rest → (rex.isSome = true → m = .m64) →
        i.length ≤ pre.length + (rex.toList.length + bs.length) := by
      intro rex bs hf hr
      obtain ⟨-, rfl, he⟩ := decodeFormat_inv hf hr
      have hb := congrArg List.length he
      have hl := length_encode i
      simp only [encode, List.length_append] at hl
      have h1 := prefixOrder_length _ _ hp rfl
      have h2 := prefixOrder_length _ _ (prefixOrder_encode i) rfl
      simp only [List.length_append, List.length_map] at hb h2
      omega
    dsimp only [decodeAfterPrefixes] at h
    split at h
    · next hm => have := key _ _ h (fun _ => hm.1); simp at this ⊢; omega
    · have := key _ _ h (by simp); simpa using this

/-- Where the program's bytes do not end inside it, the instruction at `rip` lies within the program. -/
theorem State.straddles_false {s : State} {m : Mode} {left : Nat} {i : Instr} {rest : List Byte}
    (hs : s.straddles m left = false) (hd : decode m (s.fetch m).1 = .instr i rest) : i.length ≤ left := by
  by_cases hl : left < (s.fetch m).1.length
  · have h15 : left < maxLength := lt_of_lt_of_le hl (fetchFrom_length s m maxLength 0)
    have hn : decode m ((s.fetch m).1.take left) ≠ .short := by
      simpa [State.straddles, h15, hl.le] using hs
    have ha := decode_append (more := (s.fetch m).1.drop left) hn
    rw [List.take_append_drop, hd] at ha
    cases hr : decode m ((s.fetch m).1.take left) with
    | instr j r =>
      rw [hr] at ha
      injection ha with hij
      subst hij
      exact (length_le_of_decode hr).trans (List.length_take_le _ _)
    | ud => rw [hr] at ha; cases ha
    | reject r => rw [hr] at ha; cases ha
    | short => exact absurd hr hn
  · exact (length_le_of_decode hd).trans (Nat.not_lt.mp hl)

theorem length_pos (i : Instr) : 0 < i.length := Nat.succ_pos _

/-- In a run, a step that goes on stays within the program and comes nearer to its end. -/
theorem step_within {s t : State} {m : Mode} {finish : Addr} (hm : s.mode = some m)
    (h32 : m = .m32 → s.rip.toNat ≤ finish.toNat ∧ finish.toNat < 2 ^ 32)
    (hs : s.straddles m (finish - s.rip).toNat = false) (h : step s = .next t) :
    t.mode = some m ∧ (m = .m32 → t.rip.toNat ≤ finish.toNat ∧ finish.toNat < 2 ^ 32) ∧
      (finish - t.rip).toNat < (finish - s.rip).toNat := by
  obtain ⟨m', i, rest, -, hm', hd, he⟩ := step_next h
  obtain rfl : m = m' := by simpa [hm] using hm'
  obtain ⟨m', v, hm'', -, -, rfl⟩ := (exec_next i s t).mp he
  obtain rfl : m = m' := by simpa [hm] using hm''
  have hl := State.straddles_false hs hd
  have hp := length_pos i
  refine ⟨by simpa using hm, ?_⟩
  have hf := finish.isLt
  have hr := s.rip.isLt
  simp only [State.advance_rip, State.writeVec_nextRip]
  rw [BitVec.toNat_sub] at hl ⊢
  rw [BitVec.toNat_sub]
  cases m with
  | m64 =>
    refine ⟨by simp, ?_⟩
    simp only [State.nextRip, BitVec.toNat_add, BitVec.toNat_ofNat]
    omega
  | m32 =>
    obtain ⟨h1, h2⟩ := h32 rfl
    simp only [State.nextRip, BitVec.toNat_setWidth, BitVec.toNat_add, BitVec.toNat_ofNat]
    refine ⟨fun _ => ?_, ?_⟩ <;> omega

/-- Fuel of the distance to the end is enough: more of it changes no run, so the run's last case is never reached. -/
theorem runTo_fuel {m : Mode} {finish : Addr} : ∀ (fuel : Nat) (s : State), s.mode = some m →
    (m = .m32 → s.rip.toNat ≤ finish.toNat ∧ finish.toNat < 2 ^ 32) → (finish - s.rip).toNat ≤ fuel →
    runTo m finish (fuel + 1) s = runTo m finish fuel s
  | 0, s, _, _, hf => by
    have : s.rip = finish := by
      have h1 := finish.isLt
      have h2 := s.rip.isLt
      rw [BitVec.toNat_sub] at hf
      exact BitVec.eq_of_toNat_eq (by omega)
    simp [runTo, this]
  | fuel + 1, s, hm, h32, hf => by
    unfold runTo
    split
    · rfl
    · split
      · rfl
      · next hs =>
        cases h : step s with
        | next t =>
          obtain ⟨h1, h2, h3⟩ := step_within hm h32 (by simpa using hs) h
          exact runTo_fuel fuel t h1 h2 (by omega)
        | fault f => rfl
        | refused r => rfl

/-- A launch that R28 admits in `M32` has no address of the program above 32 bits. -/
theorem State.programFits_m32 {s : State} {len : Nat} (h : s.programFits .m32 len = true) :
    s.rip.toNat ≤ (s.rip + BitVec.ofNat 64 len).toNat ∧ (s.rip + BitVec.ofNat 64 len).toNat < 2 ^ 32 := by
  simp only [State.programFits, Bool.and_eq_true, beq_iff_eq, List.all_eq_true] at h
  have h1 := congrArg BitVec.toNat h.1
  have h2 := h.2 len (List.mem_range.mpr (Nat.lt_succ_self len))
  have h3 := s.cs.limit.isLt
  simp only [State.ripOk, decide_eq_true_eq, h.1] at h2
  simp only [State.ip, BitVec.toNat_setWidth] at h1
  simp only [BitVec.toNat_add, BitVec.toNat_ofNat]
  omega

/-- A run succeeds only at the address after the program (R226). -/
theorem runTo_success {m : Mode} {finish : Addr} {t : State} : ∀ {fuel : Nat} {s : State},
    runTo m finish fuel s = .success t → t.rip = finish
  | 0, s, h => by
    unfold runTo at h
    split at h
    · cases h; assumption
    · cases h
  | fuel + 1, s, h => by
    unfold runTo at h
    split at h
    · cases h; assumption
    · split at h
      · cases h
      · cases hs : step s <;> rw [hs] at h
        · exact runTo_success h
        · cases h
        · cases h

end Sys2Proof.Machine
end

