-- ==== Sys2Proof/Tests/Slice0.lean ====
section
/-! SUPPORT. The model's own tests. Expected words and values come from spec/95_test_vectors.md and the encodings of
spec/30_encoding.md R82 to R99, R150 to R155, never from the model; and for every statement with hypotheses, a witness that
meets them all. -/

namespace Sys2Proof.Tests
open Sys2Proof Sys2Proof.Machine
set_option Elab.async false

/-! ### Helpers -/

def nextOf : Result → Option State
  | .next t => some t
  | .fault _ => none
  | .refused _ => none

def faultOf : Result → Option Fault
  | .next _ => none
  | .fault f => some f
  | .refused _ => none

def refusalOf : Result → Option Refusal
  | .next _ => none
  | .fault _ => none
  | .refused r => some r

theorem next_of {o : Result} (h : (nextOf o).isSome = true) : ∃ t, o = .next t := by
  cases o with
  | next t => exact ⟨t, rfl⟩
  | fault f => cases h
  | refused r => cases h

theorem fault_of {o : Result} {f : Fault} (h : faultOf o = some f) : o = .fault f := by
  cases o with
  | next t => cases h
  | fault g => injection h with h; rw [h]
  | refused r => cases h

/-- Register `r` after the outcome, if it is a next state. -/
def regAfter (o : Result) (r : Fin 32) : Option Vec := (nextOf o).map (·.readVec r)

def ones : Vec := BitVec.allOnes 512
def src : Vec := 0x7777666655554444_3333222211110000
def src256 : Vec := 0xFFFFEEEEDDDDCCCC_BBBBAAAA99998888_7777666655554444_3333222211110000
def src512 : Vec :=
  0x1F1F1E1E1D1D1C1C_1B1B1A1A19191818_1717161615151414_1313121211111010_0F0F0E0E0D0D0C0C_0B0B0A0A09090808_0707060605050404_0303020201010000

/-- `M64`, everything present and enabled, `rip = 400000h` (spec/95_test_vectors.md). -/
def s64 : State := { State.reset.launch with rip := 0x400000 }

/-- A flat 32-bit protected mode: `PE`, a 32-bit code segment, data segments of 4 GiB. -/
def flat32 : Segment := { selector := 8, base := 0, limit := 0xFFFFFFFF, readable := true, l := false, d := true }
def s32 : State :=
  { State.reset with
    cr0 := 0x60000011, cr4 := 0x40200, xcr0 := 0xE7, rip := 0x400000
    cs := flat32, ss := flat32, ds := flat32, es := flat32 }

def withReg (s : State) (n : Fin 32) (v : Vec) : State := s.writeVec n v
def withMask1 (s : State) (v : BitVec 64) : State := { s with k := s.k.set 1 v }
def withRax (s : State) (v : BitVec 64) : State := { s with gpr := s.gpr.set 0 v }
/-- Bytes `lo, lo+1, …` at `a`. -/
def withBytes (s : State) (a : Addr) (lo n : Nat) : State :=
  (List.range n).foldl (fun s i => s.storeByte (a + BitVec.ofNat 64 i) (BitVec.ofNat 8 (lo + i))) s

/-- One step of the program at `rip`. -/
def run (s : State) (bs : List Byte) : Result := step (s.storeCode .m64 bs 0)

/-! ### WellFormed refuses an ill-formed term, one for each check -/

/-- `rm = 100b` announces a SIB byte and names no base (R88). -/
theorem test_wf_base_four : (Instr.pshufhw ⟨none, false⟩ none 0 (.mem (.base 4 .none)) 0).wf .m64 = false := by
  decide +kernel
/-- `rm = 101b` with `mod = 00b` names no base (R88). -/
theorem test_wf_base_five : (Instr.pshufhw ⟨none, false⟩ none 0 (.mem (.base 5 .none)) 0).wf .m64 = false := by
  decide +kernel
/-- `base = 101b` with `mod = 00b` names no base in a SIB byte (R89). -/
theorem test_wf_sib_five : (Instr.pshufhw ⟨none, false⟩ none 0 (.mem (.sib 0 1 5 .none)) 0).wf .m64 = false := by
  decide +kernel
/-- No REX byte in `M32` (R84). -/
theorem test_wf_rex :
    (Instr.pshufhw ⟨none, false⟩ (some ⟨false, false, false, false⟩) 0 (.reg 1) 0).wf .m32 = false := by decide +kernel
/-- No extension bit in `M32` (R95, R99). -/
theorem test_wf_ext :
    (Instr.vpshufhw128Vex3 ⟨none, false⟩ false false true false 0 (.reg 1) 0).wf .m32 = false := by decide +kernel
/-- No `67h` in `M32` (R91). -/
theorem test_wf_addr : (Instr.vpshufhw128Vex2 ⟨none, true⟩ false 0 (.reg 1) 0).wf .m32 = false := by decide +kernel
/-- No zeroing without a mask (R98, R120). -/
theorem test_wf_mask :
    (Instr.vpshufhw512Evex ⟨none, false⟩ ⟨false, false, false, false⟩ false true 0 0 (.reg 1) 0).wf .m64 = false := by
  decide +kernel

/-! ### Every constructor from a word written out from its encoding (R82, R92, R93, R96) -/

def e0 : Ext := ⟨false, false, false, false⟩
def iLeg : Instr := .pshufhw ⟨none, false⟩ none 1 (.reg 2) 0x1B
def iV2 : Instr := .vpshufhw128Vex2 ⟨none, false⟩ false 1 (.reg 2) 0x1B
def iV3 : Instr := .vpshufhw128Vex3 ⟨none, false⟩ false false false false 1 (.reg 2) 0x1B
def iY2 : Instr := .vpshufhw256Vex2 ⟨none, false⟩ false 1 (.reg 2) 0x1B
def iY3 : Instr := .vpshufhw256Vex3 ⟨none, false⟩ false false false true 1 (.reg 2) 0x1B
def iE : Instr := .vpshufhw128Evex ⟨none, false⟩ e0 false false 1 1 (.reg 2) 0x1B
def iF : Instr := .vpshufhw256Evex ⟨none, false⟩ e0 false false 1 1 (.reg 2) 0x1B
def iZ : Instr := .vpshufhw512Evex ⟨none, false⟩ e0 false true 1 1 (.reg 2) 0x1B

/-- Format LEG: `F3 0F 70`, ModRM `11 001 010`, `1Bh`. -/
theorem test_decode_leg : decode .m64 [0b11110011, 0b00001111, 0b01110000, 0b11001010, 0b00011011] = .instr iLeg [] := by
  decide +kernel
/-- Format LEG with a GS override, `67h` and REX `0100 1 1 1 1`, SIB `10 001 010` and `disp8`. -/
theorem test_decode_leg_full :
    decode .m64 [0x65, 0x67, 0xF3, 0b01001111, 0x0F, 0x70, 0b01111100, 0b10001010, 0x80, 0xE4] =
      .instr (.pshufhw ⟨some .gs, true⟩ (some ⟨true, true, true, true⟩) 7 (.mem (.sib 2 1 2 (.d8 0x80))) 0xE4) [] := by
  decide +kernel
/-- Format VEX2: `C5`, `1 1111 0 10`, `70`. -/
theorem test_decode_vex2_128 : decode .m64 [0xC5, 0b11111010, 0x70, 0b11001010, 0x1B] = .instr iV2 [] := by decide +kernel
/-- Format VEX2, `L = 1`: `1 1111 1 10`. -/
theorem test_decode_vex2_256 : decode .m64 [0xC5, 0b11111110, 0x70, 0b11001010, 0x1B] = .instr iY2 [] := by decide +kernel
/-- Format VEX3: `C4`, `1 1 1 00001`, `0 1111 0 10`, `70`. -/
theorem test_decode_vex3_128 :
    decode .m64 [0xC4, 0b11100001, 0b01111010, 0x70, 0b11001010, 0x1B] = .instr iV3 [] := by decide +kernel
/-- Format VEX3, `W = L = 1`: `1 1111 1 10`. -/
theorem test_decode_vex3_256 :
    decode .m64 [0xC4, 0b11100001, 0b11111110, 0x70, 0b11001010, 0x1B] = .instr iY3 [] := by decide +kernel
/-- Format EVEX: `62`, `1 1 1 1 00 01`, `0 1111 1 10`, `0 00 0 1 001`, `70`. -/
theorem test_decode_evex_128 :
    decode .m64 [0x62, 0b11110001, 0b01111110, 0b00001001, 0x70, 0b11001010, 0x1B] = .instr iE [] := by decide +kernel
/-- Format EVEX, `L'L = 01b`: `0 01 0 1 001`. -/
theorem test_decode_evex_256 :
    decode .m64 [0x62, 0b11110001, 0b01111110, 0b00101001, 0x70, 0b11001010, 0x1B] = .instr iF [] := by decide +kernel
/-- Format EVEX, `L'L = 10b`, zeroing: `1 10 0 1 001`. -/
theorem test_decode_evex_512 :
    decode .m64 [0x62, 0b11110001, 0b01111110, 0b11001001, 0x70, 0b11001010, 0x1B] = .instr iZ [] := by decide +kernel
/-- All four stored extension bits differ: `0 1 0 0 00 01` is `R = 1, X = 0, B = 1, R' = 1` (R96). -/
theorem test_decode_evex_ext :
    decode .m64 [0x62, 0b01000001, 0b01111110, 0b01001000, 0x70, 0b11001010, 0x1B] =
      .instr (.vpshufhw512Evex ⟨none, false⟩ ⟨true, true, false, true⟩ false false 0 1 (.reg 2) 0x1B) [] := by
  decide +kernel
/-- `z = 1` with `aaa = 000b` is refused (R120, C13); the same with `L'L = 11b` is `#UD` (R183). -/
theorem test_decode_zeroing_without_mask :
    decode .m64 [0x62, 0xF1, 0x7E, 0x88, 0x70, 0xCA, 0x1B] = .reject .zeroingWithoutMask ∧
    decode .m64 [0x62, 0xF1, 0x7E, 0xE8, 0x70, 0xCA, 0x1B] = .ud := by decide +kernel
/-- In `M32`: `C5h` before a byte whose bits 7:6 are not `11b` is another instruction; `B̄ = 0` is refused; a byte `4xh` is no
prefix (R84, R95). -/
theorem test_decode_m32 :
    decode .m32 [0xC5, 0x7A, 0x70, 0xCA, 0x1B] = .reject .otherInstruction ∧
    decode .m32 [0xC4, 0xC1, 0x7A, 0x70, 0xCA, 0x1B] = .reject .extensionBitIn32 ∧
    decode .m32 [0xF3, 0x41, 0x0F, 0x70, 0xCA, 0x1B] = .reject .otherInstruction ∧
    decode .m32 [0x67, 0xF3, 0x0F, 0x70, 0xCA, 0x1B] = .reject .addressing16 := by decide +kernel
/-- Every row of the opcode table: its word is decoded and is the first instruction that runs (R122). -/
theorem test_table_rows :
    ([(24, 0x700FF3), (24, 0x707AC5), (32, 0x707AE1C4), (24, 0x707EC5), (32, 0x707EE1C4), (40, 0x70087EF162),
      (40, 0x70287EF162), (40, 0x70487EF162)].all fun (n, w) =>
        (decodeTableWord n w).isSome && (nextOf (step (State.reset.withFetchWord n w))).isSome) = true := by
  decide +kernel

/-! ### One step of each instruction (spec/95_test_vectors.md section 3; the row's name in each name) -/

def s64a : State := withReg (withReg s64 2 src) 1 ones

/-- L1: the bits above 127 are kept. -/
theorem test_pshufhw_L1 :
    regAfter (run s64a [0xF3, 0x0F, 0x70, 0xCA, 0x1B]) 1 =
      some (BitVec.allOnes 384 ++ (0x4444555566667777_3333222211110000 : BitVec 128)) := by decide +kernel
/-- L5 and L6: the source in memory at `1000h` is read little-endian; at `1008h` it is `#GP(0)`, at an unchanged `rip`. -/
theorem test_pshufhw_L5_L6 :
    regAfter (run (withBytes (withRax s64 0x1000) 0x1000 0 16) [0xF3, 0x0F, 0x70, 0x00, 0x1B]) 0 =
      some 0x09080B0A0D0C0F0E_0706050403020100 ∧
    faultOf (run (withBytes (withRax s64 0x1008) 0x1000 0 32) [0xF3, 0x0F, 0x70, 0x00, 0x1B]) =
      some (.exception ⟨13, some 0, none, 0, 0x400000⟩) := by decide +kernel
/-- V1: the bits above 127 are zeroed. -/
theorem test_vpshufhw128Vex2_V1 :
    regAfter (run s64a [0xC5, 0xFA, 0x70, 0xCA, 0x1B]) 1 = some 0x4444555566667777_3333222211110000 := by decide +kernel
/-- V6: a misaligned source is legal. -/
theorem test_vpshufhw128Vex2_V6 :
    regAfter (run (withBytes (withRax s64 0x1008) 0x1008 8 16) [0xC5, 0xFA, 0x70, 0x00, 0x1B]) 0 =
      some 0x1110131215141716_0F0E0D0C0B0A0908 := by decide +kernel
/-- V3: `W = 1` changes nothing, and `rip` advances by 6. -/
theorem test_vpshufhw128Vex3_V3 :
    regAfter (run s64a [0xC4, 0xE1, 0xFA, 0x70, 0xCA, 0x1B]) 1 = some 0x4444555566667777_3333222211110000 ∧
    (nextOf (run s64a [0xC4, 0xE1, 0xFA, 0x70, 0xCA, 0x1B])).map (·.rip) = some 0x400006 := by decide +kernel
/-- Y1: both lanes, the bits above 255 zeroed. -/
theorem test_vpshufhw256Vex2_Y1 :
    regAfter (run (withReg s64a 2 src256) [0xC5, 0xFE, 0x70, 0xCA, 0x1B]) 1 =
      some 0xCCCCDDDDEEEEFFFF_BBBBAAAA99998888_4444555566667777_3333222211110000 := by decide +kernel
/-- Y2: `R = B = 1` name registers 9 and 10. -/
theorem test_vpshufhw256Vex3_Y2 :
    regAfter (run (withReg s64 10 0x7777666655554444_3333222211110000_7777666655554444_3333222211110000)
      [0xC4, 0x41, 0x7E, 0x70, 0xCA, 0x1B]) 9 =
      some 0x4444555566667777_3333222211110000_4444555566667777_3333222211110000 := by decide +kernel

def dest0 : Vec := BitVec.allOnes 384 ++ (0xAAAAAAAAAAAAAAAA_AAAAAAAAAAAAAAAA : BitVec 128)

/-- E2 and E3: merging and zeroing under `K[1] = 90h`. -/
theorem test_vpshufhw128Evex_E2_E3 :
    regAfter (run (withMask1 (withReg s64a 1 dest0) 0x90) [0x62, 0xF1, 0x7E, 0x09, 0x70, 0xCA, 0x1B]) 1 =
      some 0x4444AAAAAAAA7777_AAAAAAAAAAAAAAAA ∧
    regAfter (run (withMask1 (withReg s64a 1 dest0) 0x90) [0x62, 0xF1, 0x7E, 0x89, 0x70, 0xCA, 0x1B]) 1 =
      some 0x4444000000007777_0000000000000000 := by decide +kernel
/-- E6: the mask governs the copied low words too. -/
theorem test_vpshufhw128Evex_E6 :
    regAfter (run (withMask1 (withReg s64a 1 dest0) 0x0F) [0x62, 0xF1, 0x7E, 0x09, 0x70, 0xCA, 0x1B]) 1 =
      some 0xAAAAAAAAAAAAAAAA_3333222211110000 := by decide +kernel

def dest5 : Vec := 0x5555555555555555_5555555555555555_5555555555555555_5555555555555555

/-- F2: merging under `K[1] = 00F0h`. -/
theorem test_vpshufhw256Evex_F2 :
    regAfter (run (withMask1 (withReg (withReg s64 2 src256) 1 dest5) 0xF0) [0x62, 0xF1, 0x7E, 0x29, 0x70, 0xCA, 0x1B]) 1 =
      some 0x5555555555555555_5555555555555555_4444555566667777_5555555555555555 := by decide +kernel
/-- F3: zeroing under `K[1] = F00Fh`, `imm8 = 00h`. -/
theorem test_vpshufhw256Evex_F3 :
    regAfter (run (withMask1 (withReg (withReg s64 2 src256) 1 dest5) 0xF00F) [0x62, 0xF1, 0x7E, 0xA9, 0x70, 0xCA, 0x00]) 1 =
      some 0xCCCCCCCCCCCCCCCC_0000000000000000_0000000000000000_3333222211110000 := by decide +kernel
/-- Z2: merging under `K[1] = F0F0A5C3h`. -/
theorem test_vpshufhw512Evex_Z2 :
    regAfter (run (withMask1 (withReg (withReg s64 2 src512) 1 ones) 0xF0F0A5C3)
      [0x62, 0xF1, 0x7E, 0x49, 0x70, 0xCA, 0x1B]) 1 =
      some 0x1C1C1D1D1E1E1F1F_FFFFFFFFFFFFFFFF_1414151516161717_FFFFFFFFFFFFFFFF_0C0CFFFF0E0EFFFF_FFFF0A0AFFFF0808_04040505FFFFFFFF_FFFFFFFF01010000 := by
  decide +kernel
/-- Z4: `R̄' = X̄ = 0` name registers 17 and 18. -/
theorem test_vpshufhw512Evex_Z4 :
    regAfter (run (withReg s64 18 src) [0x62, 0xA1, 0x7E, 0x48, 0x70, 0xCA, 0x1B]) 17 =
      some 0x4444555566667777_3333222211110000 := by decide +kernel

/-! ### The run of a program (R226) -/

def stateOf : RunEnd → Option State
  | .success t => some t
  | .fault _ => none
  | .refused _ => none

/-- L1 as a program: placed at `400000h`, it ends with success at the address after it. -/
theorem test_run_success :
    (stateOf (runProgram s64a 0x400000 [0xF3, 0x0F, 0x70, 0xCA, 0x1B])).map (fun t => (t.rip, t.readVec 1)) =
      some (0x400005, BitVec.allOnes 384 ++ (0x4444555566667777_3333222211110000 : BitVec 128)) := by decide +kernel
/-- A program that would reach the end of the canonical range is refused (decision D6); one byte lower it is run. -/
theorem test_run_end_out_of_range :
    runProgram s64a 0x7FFFFFFFFFFB [0xF3, 0x0F, 0x70, 0xCA, 0x1B] = .refused .instructionPointer ∧
    (stateOf (runProgram s64a 0x7FFFFFFFFFFA [0xF3, 0x0F, 0x70, 0xCA, 0x1B])).map (·.rip) = some 0x7FFFFFFFFFFF := by
  decide +kernel

/-- A program whose bytes end inside an instruction is refused, though memory holds the rest of it after them (R17, D19); one whose
step raises ends in that fault (R226). -/
theorem test_run_straddle_and_fault :
    runProgram (s64a.storeCode .m64 [0xF3, 0x0F, 0x70, 0xCA, 0x1B] 0) 0x400000 [0xF3] = .refused .programEnd ∧
    runProgram (s64a.storeCode .m64 [0xF3, 0x0F, 0x70, 0xCA, 0x1B] 0) 0x400000 [0xF3, 0x0F, 0x70, 0xCA] =
      .refused .programEnd ∧
    runProgram s64 0x400000 [0xC5, 0xF2, 0x70, 0xCA, 0x1B] = .fault (.exception ⟨6, none, none, 0, 0x400000⟩) := by
  decide +kernel

/-- Fifteen bytes that are still no instruction are `#GP(0)` (R113, R195). -/
theorem test_length_gp : faultOf (run s64 (List.replicate 15 0xF0)) = some (.exception ⟨13, some 0, none, 0, 0x400000⟩) := by
  decide +kernel

/-! ### Witnesses: every statement with hypotheses has a state and operands that meet them all -/

def iLegMem : Instr := .pshufhw ⟨none, false⟩ none 0 (.mem (.base 0 .none)) 0x1B
def iLegStack : Instr := .pshufhw ⟨none, false⟩ none 0 (.mem (.sib 0 4 4 .none)) 0x1B
def iZMem : Instr := .vpshufhw512Evex ⟨none, false⟩ e0 false false 0 1 (.mem (.base 0 (.d8 1))) 0x1B
def iV2Mem : Instr := .vpshufhw128Vex2 ⟨none, false⟩ false 0 (.mem (.base 0 .none)) 0x1B
def iLegGs : Instr := .pshufhw ⟨some .gs, true⟩ none 1 (.reg 2) 0x1B
def tail : List Byte := [0xCA, 0x1B]
/-- `[1000h, 1010h)` in no memory, `[2000h, 2010h)` a device's. -/
def mapped : Translation := .flat [⟨0x1000, 16, .absent⟩, ⟨0x2000, 16, .device⟩]

/-- And two orders of `GS`, `67h` and the mandatory `F3h`. -/
theorem witness_DecodeOfEncode :
    iZ.wf .m64 = true ∧ iLeg.wf .m32 = true ∧ iY3.wf .m32 = true ∧ iLegGs.wf .m64 = true ∧
    prefixOrder [0xF3, 0x67, 0x65] (instrPrefixes iLegGs) = true ∧
    prefixOrder [0x65, 0xF3, 0x67] (instrPrefixes iLegGs) = true := by decide +kernel

/-- The shortest encodings of the four formats (R112). -/
theorem witness_DecodeTakesTheLength :
    decode .m64 [0xF3, 0x0F, 0x70, 0xCA, 0x1B, 0x90] = .instr iLeg [0x90] ∧ iLeg.length = 5 ∧
    decode .m64 [0xC5, 0xFA, 0x70, 0xCA, 0x1B] = .instr iV2 [] ∧ iV2.length = 5 ∧ iY2.length = 5 ∧
    iV3.length = 6 ∧ iY3.length = 6 ∧ iE.length = 7 ∧ iF.length = 7 ∧ iZ.length = 7 := by decide +kernel

theorem witness_DecodeAnswersAdmittedOnly :
    decode .m32 [0xC5, 0xFA, 0x70, 0xCA, 0x1B] = .instr iV2 [] ∧
    decode .m64 [0x67, 0xF3, 0x65, 0x0F, 0x70, 0xCA, 0x1B, 0x90] = .instr iLegGs [0x90] := by decide +kernel

theorem witness_VexVvvvIsUd :
    prefixOrder [0xF0, 0x26] ⟨some .es, false, false, true⟩ = true ∧
    (takeTail tail).isSome = true ∧ (0xF2 : Byte).extractLsb' 0 2 = 2#2 ∧ (0xF2 : Byte).extractLsb' 3 4 ≠ 15#4 ∧
    (0xF2 : Byte).extractLsb' 6 2 = 3#2 ∧ (0xE1 : Byte).extractLsb' 6 2 = 3#2 ∧ (0xE1 : Byte).extractLsb' 0 5 = 1#5 := by
  decide +kernel

/-- One witness for each of the six conditions. -/
theorem witness_EvexFieldIsUd :
    prefixOrder [0x67] ⟨none, true, false, false⟩ = true ∧ (takeTail tail).isSome = true ∧ (0xF1 : Byte).extractLsb' 6 2 = 3#2 ∧ (0xF1 : Byte).extractLsb' 0 2 = 1#2 ∧
    (0x7E : Byte).extractLsb' 0 2 = 2#2 ∧
    ((0x76 : Byte).extractLsb' 0 2 = 2#2 ∧ (0x76 : Byte).extractLsb' 3 4 ≠ 15#4) ∧
    ((0xF5 : Byte).extractLsb' 0 2 = 1#2 ∧ (0xF5 : Byte).extractLsb' 2 2 ≠ 0#2) ∧
    ((0x7A : Byte).extractLsb' 0 2 = 2#2 ∧ (0x7A : Byte).getLsbD 2 = false) ∧
    (0x68 : Byte).extractLsb' 5 2 = 3#2 ∧ (0x18 : Byte).getLsbD 4 = true ∧ (0x00 : Byte).getLsbD 3 = false := by
  decide +kernel

/-- LOCK after `67h` and before `F3h`; `F3h` after an override; no prefix before a REX byte, and an override before one. -/
theorem witness_LockAndMandatoryPrefixesAreUd :
    iLeg.wf .m64 = true ∧ prefixOrder [0x67, 0xF0, 0xF3] ⟨none, true, true, true⟩ = true ∧
    iV2.wf .m32 = true ∧ iV2.form ≠ .leg ∧ prefixOrder [0xF0] ⟨none, false, false, true⟩ = true ∧
    iZ.wf .m64 = true ∧ iZ.form ≠ .leg ∧ prefixOrder [0x64, 0xF3] ⟨some .fs, false, true, false⟩ = true ∧
    prefixOrder [] ⟨none, false, false, false⟩ = true ∧ prefixOrder [0x64] ⟨some .fs, false, false, false⟩ = true := by
  decide +kernel

/-- After `F3h`; after two LOCK bytes; after `67h` and then an override. -/
theorem witness_Prefix66OrF2IsRefused :
    prefixOrder [0xF3] ⟨none, false, true, false⟩ = true ∧ prefixOrder [0xF0, 0xF0] ⟨none, false, false, true⟩ = true ∧
    prefixOrder [0x67, 0x2E] ⟨some .cs, true, false, false⟩ = true ∧
    ((0x66 : Byte) = 0x66 ∨ (0x66 : Byte) = 0xF2) ∧ ((0xF2 : Byte) = 0x66 ∨ (0xF2 : Byte) = 0xF2) := by decide +kernel

theorem witness_RegisterNumbers : iLeg.form.isEvex = false ∧ iZ.form.isEvex = true := by decide +kernel

theorem witness_Vex2AndVex3Agree :
    s64a.mode = some .m64 ∧ sourceValue iV2 .m64 s64a = sourceValue iV3 .m64 s64a ∧
    (nextOf (exec iV2 s64a)).isSome = true ∧ (nextOf (exec iV3 s64a)).isSome = true ∧
    sourceValue iY2 .m64 s64a = sourceValue iY3 .m64 s64a ∧
    (nextOf (exec iY2 s64a)).isSome = true ∧ (nextOf (exec iY3 s64a)).isSome = true := by decide +kernel

theorem witness_VectorFunctionLanes : 0 < VecLen.v128.bits / 128 ∧ 3 < VecLen.v512.bits / 128 := by decide +kernel
theorem witness_PageFormula : 1 < VecLen.v256.bits / 128 ∧ 3 < VecLen.v512.bits / 128 := by decide +kernel
theorem witness_MaskWordsPerWord : 7 < VecLen.v128.words ∧ 31 < VecLen.v512.words := by decide +kernel

/-- A mask of each clause: all zero below `KL`, all one, and two that agree below `KL`. -/
theorem witness_MaskCorners :
    (1#3 ≠ 0#3) ∧ (∀ j, j < VecLen.v128.words → (0xFF00#64).getLsbD j = false) ∧
    (∀ j, j < VecLen.v128.words → (0xFF#64).getLsbD j = true) ∧
    (∀ j, j < VecLen.v128.words → (0xFF#64).getLsbD j = (0x10FF#64).getLsbD j) := by decide +kernel

theorem witness_PshufhwResult :
    s64a.mode = some .m64 ∧ s64a.ready .leg = true ∧ sourceOk iLeg .m64 s64a = true ∧ instrDest iLeg .m64 = 1 ∧
    sourceOk iLegMem .m64 (withRax s64a 0x1000) = true ∧
    s32.mode = some .m32 ∧ s32.ready .leg = true ∧ sourceOk iLegMem .m32 (withRax s32 0x1000) = true := by decide +kernel
theorem witness_Vex128Result :
    iV2.form = .vex128 ∧ iV3.form = .vex128 ∧ s64a.mode = some .m64 ∧ s64a.ready .vex128 = true ∧
    sourceOk iV2 .m64 s64a = true ∧ sourceOk iV3 .m64 s64a = true ∧ instrDest iV3 .m64 = 1 ∧
    sourceOk iV2Mem .m64 (withRax s64a 0x1008) = true := by decide +kernel
theorem witness_Vex256Result :
    iY2.form = .vex256 ∧ iY3.form = .vex256 ∧ s64a.cfg.wf = true ∧ s64a.mode = some .m64 ∧ s64a.ready .vex256 = true ∧
    sourceOk iY2 .m64 s64a = true ∧ sourceOk iY3 .m64 s64a = true ∧ instrDest iY2 .m64 = 1 := by decide +kernel
theorem witness_Evex128Result :
    s64a.cfg.wf = true ∧ s64a.mode = some .m64 ∧ s64a.ready .evex128 = true ∧ sourceOk iE .m64 s64a = true ∧
    instrDest iE .m64 = 1 := by decide +kernel
theorem witness_Evex256Result :
    s64a.cfg.wf = true ∧ s64a.mode = some .m64 ∧ s64a.ready .evex256 = true ∧ sourceOk iF .m64 s64a = true ∧
    instrDest iF .m64 = 1 := by decide +kernel
theorem witness_Evex512Result :
    s64a.cfg.wf = true ∧ s64a.mode = some .m64 ∧ s64a.ready .evex512 = true ∧ sourceOk iZ .m64 s64a = true ∧
    instrDest iZ .m64 = 1 ∧ sourceOk iZMem .m64 (withRax s64a 0x1001) = true := by decide +kernel

theorem witness_IntrinsicsAgree :
    s64a.cfg.wf = true ∧ s64a.mode = some .m64 ∧ iZ.mask = some (1#3, true) ∧ (nextOf (exec iZ s64a)).isSome = true ∧
    sourceOk iZ .m64 s64a = true ∧ iZMem.mask = some (0#3, false) ∧ (nextOf (exec iZMem s64a)).isSome = true ∧
    iE.mask = some (1#3, false) ∧ (nextOf (exec iE s64a)).isSome = true := by decide +kernel

def iE0 : Instr := .vpshufhw128Evex ⟨none, false⟩ e0 false false 0 1 (.reg 2) 0x1B
def iF0 : Instr := .vpshufhw256Evex ⟨none, false⟩ e0 false false 0 1 (.reg 2) 0x1B

theorem witness_VexAndEvexAgree :
    s64a.mode = some .m64 ∧ iV2.form = .vex128 ∧ iE0.form = .evex128 ∧ iY3.form = .vex256 ∧ iF0.form = .evex256 ∧
    iE0.mask = some (0#3, false) ∧ iF0.mask = some (0#3, false) ∧ instrDest iV2 .m64 = instrDest iE0 .m64 ∧
    instrDest iY3 .m64 = instrDest iF0 .m64 ∧ iV2.imm = iE0.imm ∧ iY3.imm = iF0.imm ∧
    sourceValue iV2 .m64 s64a = sourceValue iE0 .m64 s64a ∧ sourceValue iY3 .m64 s64a = sourceValue iF0 .m64 s64a ∧
    ([iV2, iE0, iY3, iF0].all fun i => (nextOf (exec i s64a)).isSome) = true := by decide +kernel

/-- A next state of a register and of a memory form, in both modes: for the frame, `rip` and `R24` statements. -/
theorem witness_FrameOfEveryInstruction :
    s64a.mode = some .m64 ∧ s32.mode = some .m32 ∧
    ([iLeg, iV2, iV3, iY2, iY3, iE, iF, iZ, iZMem, iLegMem].all fun i => (nextOf (exec i s64a)).isSome) = true ∧
    ([iLeg, iV2, iV3, iY2, iY3, iE, iF, iZ].all fun i => (nextOf (exec i s32)).isSome) = true := by decide +kernel

/-- `rip` at the top of each mode's range. -/
theorem witness_RipAdvances :
    (nextOf (exec iLeg { s64a with rip := 0xFFFFFFFFFFFFFFFE })).map (·.rip) = some 3 ∧
    (nextOf (exec iLeg { s32 with rip := 0xFFFFFFFE })).map (·.rip) = some 3 := by decide +kernel

theorem witness_LegacyAndVexReachSixteen :
    iY3.form.isEvex = false ∧ (nextOf (exec iY3 s64a)).isSome = true ∧ 16 ≤ (16 : Fin 32).val := by decide +kernel

def code64 : State := s64a.storeCode .m64 [0xF3, 0x0F, 0x70, 0xCA, 0x1B] 0

theorem witness_StepChangesOneRegister : ∃ t, step code64 = .next t := next_of (by decide +kernel)

theorem witness_StepKeepsInv : code64.Inv ∧ ∃ t, step code64 = .next t := by
  refine ⟨⟨by decide +kernel, fun n j h => BitVec.getLsbD_of_ge _ _ h, fun h => absurd rfl h, by decide +kernel,
    fun h => absurd h (by decide +kernel), by decide +kernel, by decide +kernel⟩, witness_StepChangesOneRegister⟩

/-- The invariant holds of 32-bit and of narrow machines too, and so is no statement about one machine. -/
theorem witness_StepKeepsInv_m32 : s32.Inv :=
  ⟨by decide +kernel, fun n j h => BitVec.getLsbD_of_ge _ _ h, fun h => absurd rfl h, by decide +kernel,
    fun _ => by decide +kernel, by decide +kernel, by decide +kernel⟩

theorem witness_HighMaskBitsDoNotMatter :
    iE.mask = some (1#3, false) ∧
    (∀ j, j < iE.form.vl.words →
      ((s64a.k.set 1 0xFFFFFF00)[(1#3).toFin]).getLsbD j = (s64a.k[(1#3).toFin]).getLsbD j) ∧
    (nextOf (exec iE s64a)).isSome = true := by decide +kernel

theorem witness_MaskDoesNotNarrowTheRead :
    iZMem.form.isEvex = true ∧ (faultOf (exec iZMem { withRax s64 0x0FCF with translation := mapped })).isSome = true ∧
    (refusalOf (exec iZMem { withRax s64 0x1FCF with translation := mapped })).isSome = true := by decide +kernel

theorem witness_NotPrivileged :
    iV2.rm = .reg 2 ∧ (nextOf (exec iV2 s64a)).isSome = true ∧
    (faultOf (exec iV2 { s64a with cr4 := 0 })).isSome = true := by decide +kernel

theorem witness_StepRunsTheDecoded :
    code64.debugArmed = false ∧ code64.mode = some .m64 ∧
    decode .m64 (code64.fetch .m64).1 = .instr iLeg (List.replicate 10 0) := by decide +kernel

theorem witness_StepRunsTheEncoded :
    code64.debugArmed = false ∧ code64.mode = some .m64 ∧ iLeg.wf .m64 = true ∧
    (∀ k, k < iLeg.length →
      code64.fetchStop .m64 k = none ∧ some (code64.readByte (code64.fetchAddr .m64 k)) = (encode iLeg)[k]?) := by
  decide +kernel

def codeUd : State := s64.storeCode .m64 [0xC5, 0xF2, 0x70, 0xCA, 0x1B] 0

theorem witness_StepRaisesUd :
    codeUd.debugArmed = false ∧ codeUd.mode = some .m64 ∧ decode .m64 (codeUd.fetch .m64).1 = .ud := by decide +kernel

/-- A 32-bit code segment at `1000h` whose limit is `4FFh`. -/
def shortCode (eip : Addr) : State := { s32 with rip := eip, cs := { flat32 with base := 0x1000, limit := 0x4FF } }

/-- `M32` at the last address of the code segment limit and one beyond it; the first and the last byte of a region, absent and a
device's, in each mode; a page fault and a device that the fetch meets there, and a platform. -/
theorem witness_StepStopsBeforeDecode :
    ({ s64 with debugArmed := true } : State).debugArmed = true ∧
    (State.reset.debugArmed = false ∧ State.reset.mode = none) ∧
    (({ s64 with rip := 0x800000000000 } : State).mode = some .m64 ∧ canonical .w48 0x800000000000 = false) ∧
    ((shortCode 0x500).mode = some .m32 ∧ (shortCode 0x500).cs.limit.toNat < (shortCode 0x500).rip.toNat % 2 ^ 32) ∧
    ((shortCode 0x4FF).rip.toNat % 2 ^ 32 ≤ (shortCode 0x4FF).cs.limit.toNat ∧
      (0x14FF : Addr).toNat = ((shortCode 0x4FF).cs.base.toNat + (shortCode 0x4FF).rip.toNat % 2 ^ 32) % 2 ^ 32) ∧
    (canonical .w48 0x1000 = true ∧ regionAt [⟨0x1000, 16, .absent⟩, ⟨0x2000, 16, .device⟩] 0x1000 = some .absent) ∧
    (canonical .w48 0x200F = true ∧ regionAt [⟨0x1000, 16, .absent⟩, ⟨0x2000, 16, .device⟩] 0x200F = some .device) ∧
    regionAt [⟨0x14FF, 1, .absent⟩] 0x14FF = some .absent ∧ regionAt [⟨0x14FF, 1, .device⟩] 0x14FF = some .device ∧
    ({ s64 with translation := .platform 7 } : State).translation = .platform 7 ∧
    ({ s64 with rip := 0x200F, translation := mapped } : State).translateFetch 0x200F = .device := by
  decide +kernel

theorem witness_StepStopsBeforeDecode_pageFault : ({ s64 with rip := 0x1000, translation := mapped } : State).translateFetch 0x1000 =
    .pf (Config.fetchFaultCode s64.mem 0x1000 s64.cpl) := rfl

def without (f : Features) : State := { s64a with cfg := { s64a.cfg with features := f } }

/-- One witness for each flag. -/
theorem witness_AbsentFeatureIsUd :
    s64a.mode = some .m64 ∧ iLeg.form = .leg ∧ (without ⟨false, true, true, true, true, true⟩).cfg.features.sse2 = false ∧
    iV2.form = .vex128 ∧ (without ⟨true, false, true, true, true, true⟩).cfg.features.avx = false ∧
    iY2.form = .vex256 ∧ (without ⟨true, true, false, true, true, true⟩).cfg.features.avx2 = false ∧
    iE.form = .evex128 ∧ iF.form = .evex256 ∧ (without ⟨true, true, true, true, false, true⟩).cfg.features.avx512vl = false ∧
    iZ.form = .evex512 ∧ (without ⟨true, true, true, false, true, true⟩).cfg.features.avx512bw = false := by decide +kernel

/-- One witness for each enable bit. -/
theorem witness_DisabledStateIsUd :
    s64a.mode = some .m64 ∧ iLeg.form = .leg ∧ ({ s64a with cr0 := 0x60000015 } : State).cr0.getLsbD 2 = true ∧
    ({ s64a with cr4 := 0x40000 } : State).cr4.getLsbD 9 = false ∧ iV2.form ≠ .leg ∧
    ({ s64a with cr4 := 0x200 } : State).cr4.getLsbD 18 = false ∧
    ({ s64a with xcr0 := 0xE3 } : State).xcr0.extractLsb' 1 2 ≠ 0b11#2 ∧ iZ.form.isEvex = true ∧
    ({ s64a with xcr0 := 0x67 } : State).xcr0.extractLsb' 5 3 ≠ 0b111#3 := by decide +kernel

theorem witness_TaskSwitchedIsNm :
    ({ s64a with cr0 := 0x60000019 } : State).mode = some .m64 ∧
    featurePresent iZ.form ({ s64a with cr0 := 0x60000019 } : State).cfg.features = true ∧
    ({ s64a with cr0 := 0x60000019 } : State).osEnabled iZ.form = true ∧
    ({ s64a with cr0 := 0x60000019 } : State).cr0.getLsbD 3 = true := by decide +kernel

/-- A state for each vector, also for FaultPriority and NoAlignmentCheck. -/
theorem witness_ExceptionRecords :
    faultOf (exec iZ { s64a with cr4 := 0 }) = some (.exception ⟨6, none, none, 0, 0x400000⟩) ∧
    faultOf (exec iZ { s64a with cr0 := 0x60000019 }) = some (.exception ⟨7, none, none, 0, 0x400000⟩) ∧
    faultOf (exec iV2Mem (withRax s64a 0x7FFFFFFFFFF1)) = some (.exception ⟨13, some 0, none, 0, 0x400000⟩) ∧
    faultOf (exec iLegStack { s64a with gpr := s64a.gpr.set 4 0x800000000000 }) =
      some (.exception ⟨12, some 0, none, 0, 0x400000⟩) ∧
    faultOf (exec iV2Mem { withRax s64a 0x0FF8 with translation := mapped, cpl := 3 }) =
      some (.exception ⟨14, some 4, some 0x1000, 0x1000, 0x400000⟩) := by decide +kernel

theorem witness_FaultPriority :
    exec iZ { s64a with cr0 := 0x60000019 } = .fault (.exception ⟨7, none, none, 0, 0x400000⟩) ∧
    exec iV2Mem (withRax s64a 0x7FFFFFFFFFF1) = .fault (.exception ⟨13, some 0, none, 0, 0x400000⟩) :=
  ⟨fault_of witness_ExceptionRecords.2.1, fault_of witness_ExceptionRecords.2.2.1⟩

/-- `CR0.AM` and `EFLAGS.AC` set where they were clear. -/
theorem witness_NoAlignmentCheck :
    (∀ j, j < 64 → j ≠ 18 → (0x60040011#64).getLsbD j = s64a.cr0.getLsbD j) ∧
    (∀ j, j < 64 → j ≠ 18 → (0x40002#64).getLsbD j = s64a.rflags.getLsbD j) ∧
    (nextOf (exec iV2Mem (withRax s64a 0x1008))).isSome = true ∧
    (faultOf (exec iLegMem (withRax s64a 0x1008))).isSome = true := by decide +kernel

/-- Through `DS`, and through `SS` at an address that is illegal there too. -/
theorem witness_LegacyMisalignedIsGp :
    s64.mode = some .m64 ∧ s64.ready .leg = true ∧ iLegMem.form = .leg ∧ iLegMem.rm = .mem (.base 0 .none) ∧
    aligned16 (instrPlace iLegMem .m64 (.base 0 .none) (withRax s64 0x1008)).linear = false ∧
    iLegStack.form = .leg ∧ iLegStack.rm = .mem (.sib 0 4 4 .none) ∧
    aligned16 (instrPlace iLegStack .m64 (.sib 0 4 4 .none)
      { s64 with gpr := s64.gpr.set 4 0x800000000008 }).linear = false := by decide +kernel

/-- The last byte of the access is the first that is not canonical; through `DS` and through `SS`. -/
theorem witness_NonCanonicalFaults :
    s64.mode = some .m64 ∧ s64.ready iV2Mem.form = true ∧ iV2Mem.rm = .mem (.base 0 .none) ∧ iV2Mem.form ≠ .leg ∧
    15 < iV2Mem.form.vl.bytes ∧
    canonical .w48 ((instrPlace iV2Mem .m64 (.base 0 .none) (withRax s64 0x7FFFFFFFFFF1)).linear + 15#64) = false ∧
    iLegStack.rm = .mem (.sib 0 4 4 .none) ∧
    aligned16 (instrPlace iLegStack .m64 (.sib 0 4 4 .none)
      { s64 with gpr := s64.gpr.set 4 0x800000000000 }).linear = true ∧
    canonical .w48 ((instrPlace iLegStack .m64 (.sib 0 4 4 .none)
      { s64 with gpr := s64.gpr.set 4 0x800000000000 }).linear + 0#64) = false := by decide +kernel

/-- A null selector; a segment that is not readable; a limit that ends one byte short. -/
theorem witness_SegmentFaults :
    s32.mode = some .m32 ∧ s32.ready iV2Mem.form = true ∧ iV2Mem.rm = .mem (.base 0 .none) ∧ iV2Mem.form ≠ .leg ∧
    (instrPlace iV2Mem .m32 (.base 0 .none) (withRax s32 0x1000)).seg = .ds ∧
    ({ flat32 with selector := 3 } : Segment).isNull = true ∧ flat32.isNull = false ∧
    ({ flat32 with readable := false } : Segment).readable = false ∧
    ({ flat32 with limit := 0x100E } : Segment).limit.toNat <
      (instrPlace iV2Mem .m32 (.base 0 .none) (withRax s32 0x1000)).ea.toNat + iV2Mem.form.vl.bytes - 1 := by
  decide +kernel

theorem witness_PageFaultIsRaised :
    ({ withRax s64 0x0FF8 with translation := mapped } : State).mode = some .m64 ∧
    ({ withRax s64 0x0FF8 with translation := mapped } : State).ready iV2Mem.form = true ∧
    iV2Mem.rm = .mem (.base 0 .none) ∧ iV2Mem.form ≠ .leg ∧
    ({ withRax s64 0x0FF8 with translation := mapped } : State).illegal .m64 .ds 0x0FF8 0x0FF8 16 = none ∧
    instrPlace iV2Mem .m64 (.base 0 .none) { withRax s64 0x0FF8 with translation := mapped } = ⟨.ds, 0x0FF8, 0x0FF8⟩ ∧
    ({ withRax s64 0x0FF8 with translation := mapped } : State).translate .m64 0x0FF8 16 = .pf 0 0x1000 ∧
    ({ s64 with translation := .uniform .gp } : State).translate .m64 0x0FF8 16 = .gp ∧
    ({ s64 with translation := .uniform .ss } : State).translate .m64 0x0FF8 16 = .ss := by
  decide +kernel

theorem witness_DeviceSourceIsRefused :
    ({ withRax s64 0x200F with translation := mapped } : State).ready iV2Mem.form = true ∧
    ({ withRax s64 0x200F with translation := mapped } : State).illegal .m64 .ds 0x200F 0x200F 16 = none ∧
    instrPlace iV2Mem .m64 (.base 0 .none) { withRax s64 0x200F with translation := mapped } = ⟨.ds, 0x200F, 0x200F⟩ ∧
    ({ withRax s64 0x200F with translation := mapped } : State).translate .m64 0x200F 16 = .ok .device := by
  decide +kernel

/-- Directly above a region. -/
theorem witness_FlatReadIsLittleEndian :
    ∀ i, i < VecLen.v512.bytes →
      regionAt [⟨0x1000, 16, .absent⟩] (byteAddr .m64 0x1010 i) = none := by decide +kernel

/-- The last byte of the access is the first in the region. -/
theorem witness_FlatFirstAbsentByteFaults :
    15 < 16 ∧ regionAt [⟨0x1000, 16, .absent⟩] (byteAddr .m64 0x0FF1 15) = some .absent ∧
    (∀ j, j < 15 → regionAt [⟨0x1000, 16, .absent⟩] (byteAddr .m64 0x0FF1 j) ≠ some .absent) := by decide +kernel

theorem witness_EffectiveAddresses :
    64 = (if Mode.m64 = .m64 ∧ false = false then 64 else 32) ∧ 32 = (if Mode.m64 = .m64 ∧ true = false then 64 else 32) ∧
    32 = (if Mode.m32 = .m64 ∧ false = false then 64 else 32) := by decide +kernel

/-- `X = B = 1` and `67h`. -/
def iVB : Instr := .vpshufhw128Vex3 ⟨none, true⟩ false true true false 1 (.mem (.sib 3 4 5 (.d8 0x80))) 0x1B

/-- An override in each mode, and none; a stack base, and none. -/
theorem witness_SourceSegments :
    iLegGs.prefixes.seg = some .gs ∧ iLegStack.prefixes.seg = none ∧
    (some 4 : Option Nat) = some ((if Mode.m64 = .m64 then 8 * iLegStack.ext.b.toNat else 0) + (4#3).toNat) ∧
    (some 13 : Option Nat) = some ((if Mode.m64 = .m64 then 8 * iVB.ext.b.toNat else 0) + (5#3).toNat) ∧
    (some 5 : Option Nat) = some ((if Mode.m32 = .m64 then 8 * iVB.ext.b.toNat else 0) + (5#3).toNat) ∧
    (⟨some .es, false⟩ : Prefixes).seg = some .es ∧ (⟨some .gs, false⟩ : Prefixes).seg = some .gs ∧
    (⟨some .es, false⟩ : Prefixes).seg ≠ some .fs ∧ (⟨some .es, false⟩ : Prefixes).seg ≠ some .gs ∧
    (memOperand .m64 e0 1 (.sib 0 4 4 .none)).base = some 4 ∧ (memOperand .m64 e0 1 (.base 5 (.d8 0))).base = some 5 ∧
    (memOperand .m64 ⟨false, false, false, true⟩ 1 (.base 5 (.d8 0))).base = some 13 := by decide +kernel

theorem witness_LinearAddresses :
    SegName.ss ≠ .fs ∧ SegName.ss ≠ .gs ∧ (SegName.gs = .fs ∨ SegName.gs = .gs) := by decide +kernel

/-- Registers 13 and 12 with the extension bits, and without them register 5 and no index; the least `disp8`, scaled and not; each
width. -/
theorem witness_PlaceOfAMemorySource :
    32 = (if Mode.m64 = .m64 ∧ iVB.prefixes.a67 = false then 64 else 32) ∧
    (13 : Fin 16).val = (if Mode.m64 = .m64 then 8 * iVB.ext.b.toNat else 0) + (5#3).toNat ∧
    (12 : Fin 16).val = (if Mode.m64 = .m64 then 8 * iVB.ext.x.toNat else 0) + (4#3).toNat ∧
    64 = (if Mode.m64 = .m64 ∧ iZMem.prefixes.a67 = false then 64 else 32) ∧
    (4 : Fin 16).val = (if Mode.m64 = .m64 then 8 * iZMem.ext.x.toNat else 0) + (4#3).toNat ∧
    32 = (if Mode.m32 = .m64 ∧ iZMem.prefixes.a67 = false then 64 else 32) ∧
    (5 : Fin 16).val = (if Mode.m32 = .m64 then 8 * iVB.ext.b.toNat else 0) + (5#3).toNat ∧
    (0x80 : Byte).toInt * 1 = -128 ∧ (0x80 : Byte).toInt * 64 = -8192 := by decide +kernel

/-- What those numbers give (R88 to R90, R103, R110): `r13 + 8*r12 - 128` modulo 2^32, and `rax + 64` modulo 2^64. -/
theorem test_place_of_a_memory_source :
    (instrPlace iVB .m64 (.sib 3 4 5 (.d8 0x80))
      { s64 with gpr := (s64.gpr.set 13 0x100000000).set 12 0x11 }).ea = 0x08 ∧
    (instrPlace iZMem .m64 (.base 0 (.d8 1)) (withRax s64 0xFFFFFFFFFFFFFFC0)).ea = 0 := by decide +kernel

/-- The words of a machine with everything present and `CR4.OSXSAVE` set. -/
theorem witness_CpuidReportsTheFeatures :
    (∀ n v, s64.cpuidBit .leaf1Ecx n = some v → (0x18000000#32).getLsbD n = v) ∧
    (∀ n v, s64.cpuidBit .leaf1Edx n = some v → (0x04000000#32).getLsbD n = v) ∧
    (∀ n v, s64.cpuidBit .leaf7Ebx n = some v → (0xC0010020#32).getLsbD n = v) := by
  refine ⟨fun n v h => ?_, fun n v h => ?_, fun n v h => ?_⟩ <;> unfold State.cpuidBit at h <;> split at h <;> cases h <;>
    rename_i hw <;> cases hw <;> rfl

/-- `LMA` and `L` without `PE` are no mode (R36, R222). -/
theorem test_mode_needs_PE :
    ({ s64 with cr0 := 0x60000010 } : State).mode = none ∧ s64.mode = some .m64 ∧ s32.mode = some .m32 := by decide +kernel

/-- The control state of R221 with another memory and another `rip`. -/
theorem witness_NothingRunsFromReset :
    ({ State.reset with mem := [(0, 0xF3)], rip := 0 } : State).cr0 = State.reset.cr0 ∧
    ({ State.reset with mem := [(0, 0xF3)], rip := 0 } : State).efer = State.reset.efer := by decide +kernel

end Sys2Proof.Tests
end

section
/-! Proofs of family `00_scope.md`: what the fetch of the first byte asks and answers, and the stops before decode. -/

namespace Sys2Proof.Machine

/-- At the first byte in `M64` the test of `rip` is that it is canonical (R28). -/
@[simp] theorem State.ripOk_m64_zero (s : State) : s.ripOk .m64 0 = canonical s.cfg.linear s.rip := by
  simp [State.ripOk, byteAddr, State.ip]

/-- `eip` is the low 32 bits of `rip` (R28). -/
theorem State.ip_m32_toNat (s : State) : (s.ip .m32).toNat = s.rip.toNat % 2 ^ 32 := by
  simp only [State.ip, BitVec.toNat_setWidth]
  omega

/-- At the first byte in `M32` the test of `eip` is the code segment limit (R28). -/
@[simp] theorem State.ripOk_m32_zero (s : State) :
    s.ripOk .m32 0 = decide (s.rip.toNat % 2 ^ 32 ≤ s.cs.limit.toNat) := by
  rw [State.ripOk, State.ip_m32_toNat, Nat.add_zero]

/-- In `M64` the first byte lies at `rip` (R69). -/
@[simp] theorem State.fetchAddr_m64_zero (s : State) : s.fetchAddr .m64 0 = s.rip := by
  simp [State.fetchAddr, byteAddr, State.ip]

/-- In `M32` the first byte lies at the code segment base plus `eip`, modulo 2^32 (R51, R69). -/
theorem State.fetchAddr_m32_zero_toNat (s : State) :
    (s.fetchAddr .m32 0).toNat = (s.cs.base.toNat + s.rip.toNat % 2 ^ 32) % 2 ^ 32 := by
  simp only [State.fetchAddr, byteAddr, BitVec.toNat_setWidth, BitVec.toNat_add, State.ip_m32_toNat, BitVec.toNat_ofNat]
  omega

/-- Under the flat `Translate` an absent byte is a page fault of the fetch, with the free code (R62, R196). -/
theorem State.translateFetch_absent {s : State} {map : List Region} {a : Addr} (ht : s.translation = .flat map)
    (ha : regionAt map a = some .absent) : s.translateFetch a = .pf (Config.fetchFaultCode s.mem a s.cpl) := by
  simp [State.translateFetch, ht, ha]

/-- Under the flat `Translate` a device's byte is a device to the fetch (R62, R196). -/
theorem State.translateFetch_device {s : State} {map : List Region} {a : Addr} (ht : s.translation = .flat map)
    (ha : regionAt map a = some .device) : s.translateFetch a = .device := by
  simp [State.translateFetch, ht, ha]

/-- A platform's answer to the fetch is the free value of its paging (assumption 13). -/
theorem State.translateFetch_platform {s : State} {paging : Nat} (a : Addr) (ht : s.translation = .platform paging) :
    s.translateFetch a = Config.fetchVerdict paging s.mem a s.cpl := by
  simp [State.translateFetch, ht]

/-- An armed debug event is refused before anything is fetched (R214). -/
theorem step_of_debugArmed {s : State} (hd : s.debugArmed = true) : step s = .refused .debugArmed := by
  simp [step, State.fetchDecode, hd]

/-- A mode other than `M64` and `M32` is refused before anything is fetched (R8). -/
theorem step_of_mode_none {s : State} (hd : s.debugArmed = false) (hm : s.mode = none) :
    step s = .refused .unsupportedMode := by
  simp [step, State.fetchDecode, hd, hm]

section FirstByte
variable {s : State} {m : Mode} (hd : s.debugArmed = false) (hm : s.mode = some m)
include hd hm

/-- `rip` out of its range at the first byte is refused (R28). -/
theorem step_of_rip_out_of_range (hr : s.ripOk m 0 = false) : step s = .refused .instructionPointer :=
  step_of_fetchStop hd hm (r := .instructionPointer) (by simp [State.fetchStop, hr])

/-- A page fault at the first byte is the fault of the fetch, with vector 14, the code, and the byte's address for `CR2`
(R196, R198). -/
theorem step_of_fetch_pageFault {c : BitVec 32} (hr : s.ripOk m 0 = true)
    (hv : s.translateFetch (s.fetchAddr m 0) = .pf c) :
    step s = .fault (.fetchPageFault ⟨14, some c, some (s.fetchAddr m 0), s.fetchAddr m 0, s.rip⟩) :=
  step_of_fetchStop hd hm (r := .pageFault c (s.fetchAddr m 0)) (by simp [State.fetchStop, hr, hv])

/-- A device's byte at `rip` is refused (R58). -/
theorem step_of_fetch_device (hr : s.ripOk m 0 = true) (hv : s.translateFetch (s.fetchAddr m 0) = .device) :
    step s = .refused .deviceMemory :=
  step_of_fetchStop hd hm (r := .device) (by simp [State.fetchStop, hr, hv])

end FirstByte

/-- The first byte's address as `StepStopsBeforeDecode` states it, `rip` in range, is the model's, in either mode. -/
theorem State.ripOk_and_fetchAddr_zero {s : State} {a : Addr}
    (h : s.mode = some .m64 ∧ canonical s.cfg.linear s.rip = true ∧ a = s.rip ∨
      s.mode = some .m32 ∧ s.rip.toNat % 2 ^ 32 ≤ s.cs.limit.toNat ∧
        a.toNat = (s.cs.base.toNat + s.rip.toNat % 2 ^ 32) % 2 ^ 32) :
    ∃ m, s.mode = some m ∧ s.ripOk m 0 = true ∧ s.fetchAddr m 0 = a := by
  obtain ⟨hm, hcan, rfl⟩ | ⟨hm, hlim, ha⟩ := h
  · exact ⟨.m64, hm, by simpa using hcan, by simp⟩
  · exact ⟨.m32, hm, by simpa using hlim, BitVec.eq_of_toNat_eq (s.fetchAddr_m32_zero_toNat.trans ha.symm)⟩

/-- Settles O38: each stop is the rule of `step` for it, the first byte's address being the model's in either mode. -/
theorem stepStopsBeforeDecode : Obligations.StepStopsBeforeDecode := by
  intro s
  refine ⟨step_of_debugArmed, fun hd => ⟨step_of_mode_none hd, fun hm hcan => ?_, fun hm hlim => ?_, fun a hpos => ?_⟩⟩
  · exact step_of_rip_out_of_range hd hm (by simpa using hcan)
  · exact step_of_rip_out_of_range hd hm (by simpa using hlim)
  · obtain ⟨m, hm, hr, rfl⟩ := State.ripOk_and_fetchAddr_zero hpos
    refine ⟨fun map ht => ⟨fun habs => ?_, fun hdev => ?_⟩, fun paging ht => ?_, fun c hv => ?_, fun hv => ?_⟩
    · exact ⟨_, step_of_fetch_pageFault hd hm hr (State.translateFetch_absent ht habs)⟩
    · exact step_of_fetch_device hd hm hr (State.translateFetch_device ht hdev)
    · exact State.translateFetch_platform _ ht
    · exact step_of_fetch_pageFault hd hm hr hv
    · exact step_of_fetch_device hd hm hr hv

end Sys2Proof.Machine
end

section
/-! Proofs of family `10_state.md`: register numbers, what a completed instruction changes and leaves unchanged, the
invariant every step keeps, the opmask bits that matter, and the reset and control state. -/

namespace Sys2Proof.Machine

/-! ### Register numbers -/

/-- Only the EVEX formats have `R'` and so name the upper sixteen registers (R24). -/
theorem Instr.ext_rHi_of_not_evex {i : Instr} (h : i.form.isEvex = false) : i.ext.rHi = false := by
  cases i with
  | pshufhw p rex reg rm imm => cases rex <;> rfl
  | vpshufhw128Vex2 | vpshufhw128Vex3 | vpshufhw256Vex2 | vpshufhw256Vex3 => rfl
  | vpshufhw128Evex | vpshufhw256Evex | vpshufhw512Evex => cases h

/-- In `M64` a vector register number is five bits (R100 to R102). -/
@[simp] theorem vecNum_m64_val (hi mid : Bool) (low : BitVec 3) :
    (vecNum .m64 hi mid low).val = 16 * hi.toNat + 8 * mid.toNat + low.toNat := by
  revert hi mid low
  decide

/-- In `M32` a vector register number is the three bits of the field (R23, R100). -/
@[simp] theorem vecNum_m32_val (hi mid : Bool) (low : BitVec 3) : (vecNum .m32 hi mid low).val = low.toNat := by
  revert hi mid low
  decide

/-- Without the top bit a vector register number is below 16, in either mode. -/
theorem vecNum_lt_sixteen (m : Mode) (mid : Bool) (low : BitVec 3) : (vecNum m false mid low).val < 16 := by
  have hlow := low.isLt
  have hmid := mid.toNat_lt
  cases m
  · simp only [vecNum_m64_val, Bool.toNat_false]
    omega
  · rw [vecNum_m32_val]
    omega

/-- The destination of a legacy or VEX encoding is one of the lower sixteen registers (R24). -/
theorem instrDest_lt_sixteen {i : Instr} (h : i.form.isEvex = false) (m : Mode) : (instrDest i m).val < 16 := by
  rw [instrDest, destNum, Instr.ext_rHi_of_not_evex h]
  exact vecNum_lt_sixteen m i.ext.r i.reg

/-- The register source of a legacy or VEX encoding is one of the lower sixteen registers (R24). -/
theorem srcNum_lt_sixteen {f : Form} (h : f.isEvex = false) (m : Mode) (e : Ext) (n : BitVec 3) :
    (srcNum m f e n).val < 16 := by
  rw [srcNum, h]
  exact vecNum_lt_sixteen m e.b n

/-- Settles O9: the numbers are `vecNum` of the encoding's bits, the top ones absent outside EVEX. -/
theorem registerNumbers : Obligations.RegisterNumbers := by
  intro i n
  simp only [instrDest, destNum, srcNum, vecNum_m32_val, vecNum_m64_val, true_and]
  constructor <;> intro hf
  · simp [hf, Instr.ext_rHi_of_not_evex hf]
  · simp [hf]

/-! ### Frames -/

/-- A completed instruction changes nothing but its destination register and `rip` (R22, R54, R159). -/
theorem onlyVecAndRip_of_next {i : Instr} {s t : State} {m : Mode} (hm : s.mode = some m) (h : exec i s = .next t) :
    OnlyVecAndRip (instrDest i m) s t := by
  obtain ⟨m', v, hm', -, -, rfl⟩ := (exec_next i s t).mp h
  obtain rfl : m = m' := by simpa [hm] using hm'
  exact onlyVecAndRip ..

/-- Settles O26: the completed state is the old one with one register written and `rip` moved. -/
theorem frameOfEveryInstruction : Obligations.FrameOfEveryInstruction :=
  fun _ _ _ _ => onlyVecAndRip_of_next

/-- Settles O28: without `R'` the numbers stay below 16, and what is not the destination is kept. -/
theorem legacyAndVexReachSixteen : Obligations.LegacyAndVexReachSixteen := by
  intro i m hf
  refine ⟨instrDest_lt_sixteen hf m, srcNum_lt_sixteen hf m i.ext, fun s t n h hn => ?_⟩
  obtain ⟨m', _, hm', -⟩ := (exec_next i s t).mp h
  have hlt := instrDest_lt_sixteen hf m'
  exact (onlyVecAndRip_of_next hm' h).vec n fun e => by omega

/-- An instruction that ends within 2^32 bytes moves `rip`, wrapped or not (R28, R160). -/
theorem State.nextRip_ne_rip {s : State} {m : Mode} {len : Nat} (hpos : 0 < len) (hlt : len < 2 ^ 32) :
    s.nextRip m len ≠ s.rip := by
  intro h
  have hn := congrArg BitVec.toNat h
  have hr := s.rip.isLt
  cases m <;>
    simp only [State.nextRip, BitVec.toNat_setWidth, BitVec.toNat_add, BitVec.toNat_ofNat] at hn <;>
    omega

/-- Settles O29: a step that goes on has completed an instruction of one to fifteen bytes. -/
theorem stepChangesOneRegister : Obligations.StepChangesOneRegister := by
  intro s t h
  obtain ⟨m, i, _, -, hm, hdec, he⟩ := step_next h
  have hlen : i.length ≤ 15 := (length_le_of_decode hdec).trans (fetchFrom_length s m maxLength 0)
  obtain ⟨m', _, -, -, -, rfl⟩ := (exec_next i s t).mp he
  refine ⟨instrDest i m, onlyVecAndRip_of_next hm he, ?_⟩
  rw [State.advance_rip, State.writeVec_nextRip]
  exact (State.nextRip_ne_rip (length_pos i) (by omega)).symm

/-! ### The invariant -/

/-- A vector write keeps the invariant: the written value has `MAXVL` bits (R20), and below 512 bits only a register that
exists may be written. -/
theorem State.Inv.writeVec {s : State} {d : Fin 32} {v : Vec} (hs : s.Inv)
    (hd : s.cfg.maxvl ≠ .v512 → d.val < 16) : (s.writeVec d v).Inv where
  cfg := hs.cfg
  width n j hj := by
    by_cases hn : n = d
    · subst hn
      rw [State.writeVec_cfg] at hj
      rw [State.writeVec_vec_same, getLsbD_lowBits, decide_eq_false (Nat.not_lt.mpr hj), Bool.false_and]
    · rw [State.writeVec_vec_other s d n v hn]
      exact hs.width n j hj
  count hmax n hn := by
    have hne : n ≠ d := fun e => absurd (hd hmax) (by omega)
    rw [State.writeVec_vec_other s d n v hne]
    exact hs.count hmax n hn
  mem := hs.mem
  rip32 := hs.rip32
  x87 := hs.x87
  cr0 := hs.cr0

/-- Moving the instruction pointer in the mode of the state keeps the invariant (R28). -/
theorem State.Inv.advance {s : State} {m : Mode} {len : Nat} (hs : s.Inv) (hm : s.mode = some m) :
    (s.advance m len).Inv where
  cfg := hs.cfg
  width := hs.width
  count := hs.count
  mem := hs.mem
  rip32 h := by
    have h32 : m = .m32 := by simpa [hm] using h
    subst h32
    exact s.nextRip_m32_lt len
  x87 := hs.x87
  cr0 := hs.cr0

/-- Where the constants fit together, an EVEX encoding that may execute has 512-bit registers: all of them need AVX512BW
(R2, R6). -/
theorem maxvl_of_evex_ready {s : State} {f : Form} (hw : s.cfg.wf = true) (hr : s.ready f = true)
    (hf : f.isEvex = true) : s.cfg.maxvl = .v512 := by
  have hbw : s.cfg.features.avx512bw = true := by
    cases f with
    | leg | vex128 | vex256 => cases hf
    | evex128 | evex256 | evex512 => simp_all [State.ready, featurePresent]
  simpa [Config.wf, hbw] using And.left (Bool.and_eq_true_iff.mp hw)

/-- A completed instruction keeps the invariant. -/
theorem exec_keeps_inv {i : Instr} {s t : State} (hs : s.Inv) (h : exec i s = .next t) : t.Inv := by
  have hr := ready_of_next h
  obtain ⟨m, v, hm, -, -, rfl⟩ := (exec_next i s t).mp h
  refine State.Inv.advance (hs.writeVec fun hmax => instrDest_lt_sixteen ?_ m) hm
  exact Bool.eq_false_iff.mpr fun hf => hmax (maxvl_of_evex_ready hs.cfg hr hf)

/-- Settles O30: a step that goes on has completed one instruction, which keeps the invariant. -/
theorem stepKeepsInv : Obligations.StepKeepsInv := by
  intro s t hs h
  obtain ⟨_, i, _, -, -, -, he⟩ := step_next h
  exact exec_keeps_inv hs he

/-- Settles O31: every vector register is zero and every other field is a constant. -/
theorem resetMeetsInv : Obligations.ResetMeetsInv where
  cfg := by decide
  width n j _ := by simp [State.reset]
  count _ n _ := by simp [State.reset]
  mem := State.reset_mem_wf
  rip32 h := by cases h
  x87 := by decide
  cr0 := by decide

/-! ### The opmask bits that matter -/

/-- A vector depends on its first `n` pieces alone. -/
theorem ofPieces_congr {w : Nat} {f g : Nat → BitVec w} : ∀ {n : Nat}, (∀ j, j < n → f j = g j) →
    ofPieces w n f = ofPieces w n g
  | 0, _ => rfl
  | n + 1, h => by
    rw [ofPieces, ofPieces, ofPieces_congr fun j hj => h j (Nat.lt_succ_of_lt hj), h n (Nat.lt_succ_self n)]

/-- Write-masking reads the low `KL` mask bits alone (R156, R164). -/
theorem maskWords_congr_mask {vl : VecLen} {k k' : BitVec 64} (h : ∀ j, j < vl.words → k'.getLsbD j = k.getLsbD j)
    (old t : Vec) (aaa : BitVec 3) (z : Bool) : maskWords vl old t k' aaa z = maskWords vl old t k aaa z :=
  ofPieces_congr fun j hj => by rw [h j hj]

/-- How an EVEX row combines the old destination and the result depends on bits `KL-1:0` of `K[aaa]` alone (R26). -/
theorem writeOf_congr_mask {i : Instr} {s : State} {k' : Vector (BitVec 64) 8} {aaa : BitVec 3} {z : Bool}
    (hi : i.mask = some (aaa, z))
    (hk : ∀ j, j < i.form.vl.words → (k'[aaa.toFin]).getLsbD j = (s.k[aaa.toFin]).getLsbD j) :
    writeOf i { s with k := k' } = writeOf i s := by
  funext old t
  cases i with
  | pshufhw | vpshufhw128Vex2 | vpshufhw128Vex3 | vpshufhw256Vex2 | vpshufhw256Vex3 => cases hi
  | vpshufhw128Evex | vpshufhw256Evex | vpshufhw512Evex => cases hi; exact maskWords_congr_mask hk ..

/-- No opmask register enters the source value, nor the checks on it (R59). -/
theorem srcVal_with_masks (f : Form) (m : Mode) (p : Prefixes) (e : Ext) (rm : RmField) (len : Nat) (s : State)
    (k' : Vector (BitVec 64) 8) : srcVal f m p e rm len { s with k := k' } = srcVal f m p e rm len s := by
  cases rm <;> rfl

/-- Settles O32: the mask bits enter in the one write alone, and there only those below `KL`. -/
theorem highMaskBitsDoNotMatter : Obligations.HighMaskBitsDoNotMatter := by
  intro i s t k' aaa z hi hk h
  obtain ⟨m, v, hm, hf, hv, rfl⟩ := (exec_next i s t).mp h
  refine (exec_next i _ _).mpr ⟨m, v, hm, hf, (srcVal_with_masks ..).trans hv, ?_⟩
  rw [writeOf_congr_mask hi hk]
  cases m <;> rfl

/-! ### Reset and control state -/

/-- Settles O57: the registers are replicated zeros, the other values the table's own. -/
theorem resetValues : Obligations.ResetValues := by
  refine ⟨fun n => ?_, fun n => ?_, fun n _ => ?_, rfl, rfl, rfl, rfl, rfl, rfl, rfl, rfl, rfl, rfl⟩ <;>
    simp [State.reset]

/-- Settles O59: the tests of `State.mode`, in their order: `PE`, then long mode with a 64-bit code segment, then `VM`
and `D`. -/
theorem modeOfTheControlState : Obligations.ModeOfTheControlState := by
  intro s
  change (s.mode = some .m64 ↔ s.cr0PE = true ∧ s.eferLMA = true ∧ s.cs.l = true) ∧
    (s.mode = some .m32 ↔ s.cr0PE = true ∧ s.flagVM = false ∧ s.cs.d = true ∧ (s.eferLMA = false ∨ s.cs.l = false))
  unfold State.mode
  cases s.cr0PE with
  | false => simp
  | true =>
    cases hlong : s.eferLMA && s.cs.l with
    | true => simp [Bool.and_eq_true_iff.mp hlong]
    | false =>
      obtain hlma | hl := Bool.and_eq_false_iff.mp hlong
      · simp [hlma]
      · simp [hl]

/-- Settles O60: each feature is read back from the bit that reports it. -/
theorem cpuidReportsTheFeatures : Obligations.CpuidReportsTheFeatures := by
  intro s
  refine ⟨rfl, rfl, rfl, rfl, rfl, rfl, rfl, fun ecx1 edx1 ebx7 hecx hedx hebx => ?_⟩
  rw [featuresOfCpuid, hedx 26 _ rfl, hecx 28 _ rfl, hebx 5 _ rfl, hebx 30 _ rfl, hebx 31 _ rfl, hebx 16 _ rfl]

end Sys2Proof.Machine
end

section
/-! Proofs of family `20_memory.md`: the checks on a memory source before translation, what `Translate` answers and what becomes
of it, the read under the flat `Translate`, and that no opmask register enters a fault. -/

namespace Sys2Proof.Machine

/-! ### The records of an exception -/

/-- An address illegal in its segment is `#SS(0)` through `SS` and `#GP(0)` through any other (R194, R195). -/
theorem segmentException_record (seg : SegName) (s : State) :
    (segmentException seg).record s =
      if seg = .ss then ⟨12, some 0, none, s.cr2, s.rip⟩ else ⟨13, some 0, none, s.cr2, s.rip⟩ := by
  cases seg <;> rfl

/-- `W/R`, `U/S` and `I/D` are the only bits of `Translate`'s code that R198 fixes. -/
theorem getLsbD_pageFaultCode (cpl : BitVec 2) (c : BitVec 32) {j : Nat} (h1 : j ≠ 1) (h2 : j ≠ 2) (h4 : j ≠ 4) :
    (pageFaultCode cpl c).getLsbD j = c.getLsbD j := by
  by_cases hj : j < 32
  · have hkeep : ∀ j < 32, j ≠ 1 → j ≠ 2 → j ≠ 4 →
        (~~~0b10110#32).getLsbD j = true ∧ (0b100#32).getLsbD j = false := by decide
    obtain ⟨hmask, huser⟩ := hkeep j hj h1 h2 h4
    rw [pageFaultCode, BitVec.getLsbD_or, BitVec.getLsbD_and, hmask, Bool.and_true]
    split
    · rw [huser, Bool.or_false]
    · rw [BitVec.getLsbD_zero, Bool.or_false]
  · rw [BitVec.getLsbD_of_ge _ _ (by omega), BitVec.getLsbD_of_ge _ _ (by omega)]

/-! ### The legality of an access -/

/-- In `M64` one byte that is not canonical makes the whole access illegal (R61). -/
theorem State.illegal_m64_of_not_canonical {s : State} {seg : SegName} {ea linear : Addr} {n k : Nat} (hk : k < n)
    (hc : canonical s.cfg.linear (linear + BitVec.ofNat 64 k) = false) :
    s.illegal .m64 seg ea linear n = some (segmentException seg) := by
  have hnot : ¬ (byteAddrs .m64 linear n).all (canonical s.cfg.linear) = true := fun hall => by
    have hmem : linear + BitVec.ofNat 64 k ∈ byteAddrs .m64 linear n :=
      List.mem_map.mpr ⟨k, List.mem_range.mpr hk, rfl⟩
    exact Bool.false_ne_true (hc.symm.trans (List.all_eq_true.mp hall _ hmem))
  exact if_neg hnot

/-- In `M32` a null segment is tested first and is `#GP(0)`, `SS` or not (R61, assumption 16). -/
theorem State.illegal_m32_of_null {s : State} {seg : SegName} {ea linear : Addr} {n : Nat}
    (hnull : (s.segment seg).isNull = true) : s.illegal .m32 seg ea linear n = some .gp :=
  if_pos hnull

/-- In `M32` a segment that is not readable, or that ends below the last byte, makes the access illegal (R61). -/
theorem State.illegal_m32_of_unreadable_or_short {s : State} {seg : SegName} {ea linear : Addr} {n : Nat}
    (hnull : (s.segment seg).isNull = false)
    (h : (s.segment seg).readable = false ∨ (s.segment seg).limit.toNat < ea.toNat + n - 1) :
    s.illegal .m32 seg ea linear n = some (segmentException seg) := by
  have hbad : ((s.segment seg).inLimit ea n && (s.segment seg).readable) = false := by
    obtain hread | hlim := h
    · rw [hread, Bool.and_false]
    · rw [Segment.inLimit, decide_eq_false (by omega), Bool.false_and]
  simp [State.illegal, hnull, hbad]

/-- A misaligned legacy source is `#GP(0)`, and `#SS(0)` only where its address is illegal in `SS` too (R55, R63, decision
D12). -/
theorem State.addressFault_of_misaligned {s : State} {m : Mode} {seg : SegName} {ea linear : Addr} {n : Nat}
    (hal : aligned16 linear = false) :
    s.addressFault m true seg ea linear n = some .gp ∨
      s.illegal m seg ea linear n = some .ss ∧ s.addressFault m true seg ea linear n = some .ss := by
  have hmis : (true && linear.extractLsb' 0 4 != 0#4) = true := by simpa [aligned16] using hal
  rw [State.addressFault, if_pos hmis]
  by_cases hbad : s.illegal m seg ea linear n = some .ss
  · rw [if_pos hbad]
    cases Config.alignmentFirst s.freeIndex
    · exact .inr ⟨hbad, rfl⟩
    · exact .inl rfl
  · exact .inl (if_neg hbad)

/-! ### What a read makes of `Translate`'s answer -/

section MemRead
variable {s : State} {m : Mode} {a : Addr} {n : Nat}

/-- Ordinary memory is read, little-endian (R50, R52). -/
theorem State.memRead_ordinary (h : s.translate m a n = .ok .ordinary) :
    s.memRead m a n = .ok (ofPieces 8 n (s.translatedByte m a n)) := by
  simp [State.memRead, h]

/-- A device is refused (R58). -/
theorem State.memRead_device (h : s.translate m a n = .ok .device) : s.memRead m a n = .refused .deviceMemory := by
  simp [State.memRead, h]

/-- `Translate`'s `#GP(0)` is raised (R62). -/
theorem State.memRead_gp (h : s.translate m a n = .gp) : s.memRead m a n = .raised .gp := by
  simp [State.memRead, h]

/-- `Translate`'s `#SS(0)` is raised (R62). -/
theorem State.memRead_ss (h : s.translate m a n = .ss) : s.memRead m a n = .raised .ss := by
  simp [State.memRead, h]

/-- `Translate`'s page fault is raised (R62, R196). -/
theorem State.memRead_pf {c : BitVec 32} {b : Addr} (h : s.translate m a n = .pf c b) :
    s.memRead m a n = .raised (.pf c b) := by
  simp [State.memRead, h]

end MemRead

/-! ### What an instruction makes of its source -/

/-- The exception a ready instruction's source raises is the instruction's fault (R199). -/
theorem exec_of_srcVal_raised {i : Instr} {s : State} {m : Mode} {x : Exception} (hm : s.mode = some m)
    (hr : s.ready i.form = true) (hv : srcVal i.form m i.prefixes i.ext i.rm i.length s = .raised x) :
    exec i s = .fault (.exception (x.record s)) :=
  (exec_fault i s _).mpr ⟨m, x, hm, .inr ⟨(State.formFault_eq_none s i.form).mpr hr, hv⟩, rfl⟩

/-- The refusal of a ready instruction's source is the instruction's. -/
theorem exec_of_srcVal_refused {i : Instr} {s : State} {m : Mode} {r : Refusal} (hm : s.mode = some m)
    (hr : s.ready i.form = true) (hv : srcVal i.form m i.prefixes i.ext i.rm i.length s = .refused r) :
    exec i s = .refused r :=
  (exec_refused i s r).mpr (.inr ⟨m, hm, (State.formFault_eq_none s i.form).mpr hr, hv⟩)

/-- A memory source that fails the checks before translation raises their exception (R63). -/
theorem srcVal_of_addressFault {i : Instr} {s : State} {m : Mode} {fld : MemField} {x : Exception} (hrm : i.rm = .mem fld)
    (hx : s.addressFault m (i.form == .leg) (instrPlace i m fld s).seg (instrPlace i m fld s).ea
      (instrPlace i m fld s).linear i.form.vl.bytes = some x) :
    srcVal i.form m i.prefixes i.ext i.rm i.length s = .raised x := by
  unfold instrPlace at hx
  simp only [hrm, srcVal, memSource, hx]

section AlignedSource
variable {i : Instr} {s : State} {m : Mode} {fld : MemField} (hrm : i.rm = .mem fld)
  (hal : i.form = .leg → aligned16 (instrPlace i m fld s).linear = true)
include hrm hal

/-- Where alignment is no matter, an illegal address raises its exception (R61). -/
theorem srcVal_of_illegal {x : Exception}
    (hx : s.illegal m (instrPlace i m fld s).seg (instrPlace i m fld s).ea (instrPlace i m fld s).linear
      i.form.vl.bytes = some x) :
    srcVal i.form m i.prefixes i.ext i.rm i.length s = .raised x :=
  srcVal_of_addressFault hrm ((addressFault_of_aligned hal).trans hx)

/-- Once the checks before translation pass, the source is one read of `VL/8` bytes (R52, R53). -/
theorem srcVal_of_legal
    (hx : s.illegal m (instrPlace i m fld s).seg (instrPlace i m fld s).ea (instrPlace i m fld s).linear
      i.form.vl.bytes = none) :
    srcVal i.form m i.prefixes i.ext i.rm i.length s = s.memRead m (instrPlace i m fld s).linear i.form.vl.bytes := by
  have hpass := (addressFault_of_aligned hal).trans hx
  unfold instrPlace at hpass ⊢
  simp only [hrm, srcVal, memSource, hpass]

end AlignedSource

/-! ### The faults and the refusal of a memory source -/

/-- Settles O45: the alignment check raises unless the segment's check is made first and answers `#SS(0)`. -/
theorem legacyMisalignedIsGp : Obligations.LegacyMisalignedIsGp := by
  intro i s m fld hm hf hr hrm hal
  have hready : s.ready i.form = true := by rw [hf]; exact hr
  have hraise : ∀ x, s.addressFault m true (instrPlace i m fld s).seg (instrPlace i m fld s).ea
      (instrPlace i m fld s).linear 16 = some x → exec i s = .fault (.exception (x.record s)) := fun x hx =>
    exec_of_srcVal_raised hm hready (srcVal_of_addressFault hrm (by rw [hf]; exact hx))
  obtain hgp | ⟨hbad, hss⟩ := State.addressFault_of_misaligned hal
  · exact .inl (hraise .gp hgp)
  · exact .inr ⟨hbad, hraise .ss hss⟩

/-- Settles O46: the byte that is not canonical makes the access illegal in its segment. -/
theorem nonCanonicalFaults : Obligations.NonCanonicalFaults := by
  intro i s fld k hm hr hrm hal hk hc
  rw [← segmentException_record]
  exact exec_of_srcVal_raised hm hr (srcVal_of_illegal hrm hal (State.illegal_m64_of_not_canonical hk hc))

/-- Settles O47: a null segment first, then readability and the limit. -/
theorem segmentFaults : Obligations.SegmentFaults := by
  intro i s fld hm hr hrm hal
  refine ⟨fun hnull => ?_, fun hnull hbad => ?_⟩
  · exact exec_of_srcVal_raised hm hr (srcVal_of_illegal hrm hal (State.illegal_m32_of_null hnull))
  · rw [← segmentException_record]
    exact exec_of_srcVal_raised hm hr (srcVal_of_illegal hrm hal (State.illegal_m32_of_unreadable_or_short hnull hbad))

/-- Settles O48: a legal source is one read, which raises what `Translate` answers; the record corrects three bits of the
code. -/
theorem pageFaultIsRaised : Obligations.PageFaultIsRaised := by
  intro i s m fld hm hr hrm hal hlegal
  have hread := srcVal_of_legal hrm hal hlegal
  refine ⟨fun c a ht => ⟨pageFaultCode s.cpl c, ?_, fun j => getLsbD_pageFaultCode s.cpl c⟩, fun ht => ?_, fun ht => ?_⟩
  · exact exec_of_srcVal_raised hm hr (hread.trans (State.memRead_pf ht))
  · exact exec_of_srcVal_raised hm hr (hread.trans (State.memRead_gp ht))
  · exact exec_of_srcVal_raised hm hr (hread.trans (State.memRead_ss ht))

/-- Settles O49: a legal source is one read, which refuses a device. -/
theorem deviceSourceIsRefused : Obligations.DeviceSourceIsRefused := by
  intro i s m fld hm hr hrm hal hlegal ht
  exact exec_of_srcVal_refused hm hr ((srcVal_of_legal hrm hal hlegal).trans (State.memRead_device ht))

/-! ### The flat `Translate` -/

/-- Where no region covers a byte of the access, it is ordinary memory (R62). -/
theorem flatVerdict_ordinary {map : List Region} {addrs : List Addr} (h : ∀ b ∈ addrs, regionAt map b = none) :
    flatVerdict map addrs = .ok .ordinary := by
  have habsent : addrs.find? (fun b => regionAt map b == some .absent) = none :=
    List.find?_eq_none.mpr fun b hb => by simp [h b hb]
  have hdevice : addrs.any (fun b => regionAt map b == some .device) = false :=
    List.any_eq_false.mpr fun b hb => by simp [h b hb]
  simp [flatVerdict, habsent, hdevice]

/-- The first byte of an access that is absent is the one the page fault reports (R56, R62). -/
theorem flatVerdict_absent {map : List Region} {m : Mode} {a : Addr} {n k : Nat} (hk : k < n)
    (habs : regionAt map (byteAddr m a k) = some .absent)
    (hfirst : ∀ j, j < k → regionAt map (byteAddr m a j) ≠ some .absent) :
    flatVerdict map (byteAddrs m a n) = .pf 0 (byteAddr m a k) := by
  have hindex : (List.range n).find? (fun j => regionAt map (byteAddr m a j) == some .absent) = some k :=
    List.find?_range_eq_some.mpr
      ⟨beq_iff_eq.mpr habs, List.mem_range.mpr hk, fun j hj => by simpa using hfirst j hj⟩
  have hfind : (byteAddrs m a n).find? (fun b => regionAt map b == some .absent) = some (byteAddr m a k) := by
    rw [byteAddrs, List.find?_map]
    exact congrArg (Option.map (byteAddr m a)) hindex
  simp [flatVerdict, hfind]

section Flat
variable {s : State} {map : List Region} (ht : s.translation = .flat map)
include ht

/-- The flat `Translate` answers by its map alone (R62). -/
theorem State.translate_flat (m : Mode) (a : Addr) (n : Nat) :
    s.translate m a n = flatVerdict map (byteAddrs m a n) := by
  simp [State.translate, ht]

/-- The bytes the flat `Translate` answers with are memory's (R62). -/
theorem State.translatedByte_flat (m : Mode) (a : Addr) (n i : Nat) :
    s.translatedByte m a n i = s.readByte (byteAddr m a i) := by
  simp [State.translatedByte, ht]

end Flat

/-- Settles O50: the read is ordinary, and its value is made of the bytes of memory, nothing above them. -/
theorem flatReadIsLittleEndian : Obligations.FlatReadIsLittleEndian := by
  intro s m a vl map ht hnone
  have hord : s.translate m a vl.bytes = .ok .ordinary := by
    rw [State.translate_flat ht]
    refine flatVerdict_ordinary fun b hb => ?_
    obtain ⟨i, hi, rfl⟩ := List.mem_map.mp hb
    exact hnone i (List.mem_range.mp hi)
  have hbits := vl.bytes_eq
  refine ⟨_, State.memRead_ordinary hord, fun i hi => ?_, fun j hj => ?_⟩
  · rw [extract_ofPieces 8 vl.bytes (by decide) (hbits.trans_le vl.bits_le) _ i hi, State.translatedByte_flat ht]
  · exact getLsbD_ofPieces_ge 8 (by decide) vl.bytes _ j (hbits.trans_le hj)

/-- Settles O51: the flat `Translate` answers with the first absent byte, and the read raises that page fault. -/
theorem flatFirstAbsentByteFaults : Obligations.FlatFirstAbsentByteFaults := by
  intro s m a n k map ht hk habs hfirst
  exact State.memRead_pf ((State.translate_flat ht m a n).trans (flatVerdict_absent hk habs hfirst))

/-! ### Masks do not narrow the read -/

/-- Settles O33: what an instruction raises or refuses is decided by the mode, the form and the source, and no opmask register
enters any of them. -/
theorem maskDoesNotNarrowTheRead : Obligations.MaskDoesNotNarrowTheRead := by
  intro i s k' _
  refine ⟨fun f => ?_, fun r => ?_, fun m => ?_⟩
  · rw [exec_fault, exec_fault]
    simp only [srcVal_with_masks]
    rfl
  · rw [exec_refused, exec_refused]
    simp only [srcVal_with_masks]
    rfl
  · unfold sourceValue
    cases i.rm <;> rfl

end Sys2Proof.Machine
end

section
/-! Proofs of family `30_encoding.md`: the decoder and the encoder are inverse to each other on the admitted set, prefixes in any
order; the encodings that are `#UD` or refused; the fields that change no outcome; and where a memory source lies. -/

namespace Sys2Proof
open Machine

/-! ### Decoding after any order of prefixes -/

/-- Whatever order of prefixes stands before it, a byte that is none ends their loop (R121). -/
theorem decode_order_cons {m : Mode} {pre : List Byte} {q : Seen} (hp : prefixOrder pre q = true) {b : Byte}
    (hb : prefixKind b = .none) (bs : List Byte) : decode m (pre ++ b :: bs) = decodeAfterPrefixes m q (b :: bs) := by
  rw [decode, scanPrefixes_order hp, scanPrefixes_none q bs hb]

/-- An instruction's own prefixes, in any order, raise no `#UD`: LOCK is not among them, and `F3h` only in format LEG (R192). -/
theorem instrPrefixes_admitted (i : Instr) :
    ((instrPrefixes i).lock || ((instrPrefixes i).f3 && i.form != .leg)) = false := by
  cases h : i.form <;> simp [instrPrefixes, h]

/-- The decoder reads the rest of an encoding back after its prefixes in any order (R120, R121). -/
theorem decode_instrPrefixes_encodeBody {m : Mode} {i : Instr} (hw : i.wf m = true) {pre : List Byte}
    (hp : prefixOrder pre (instrPrefixes i) = true) (rest : List Byte) :
    decode m (pre ++ encodeBody i ++ rest) = .instr i rest := by
  obtain ⟨build, hbuild, hdec⟩ :=
    decodeAfterPrefixes_encodeBody hw (q := instrPrefixes i) (fun hf => by simp [instrPrefixes, hf]) rest
  simp only [Instr.wf, Bool.and_eq_true] at hw
  obtain ⟨⟨⟨⟨hrm, -⟩, -⟩, haddr⟩, -⟩ := hw
  have h67 : ¬ (m = .m32 ∧ (instrPrefixes i).a67 = true) := by
    rintro ⟨rfl, h⟩
    simp [Instr.addressOk, show i.prefixes.a67 = true from h] at haddr
  rw [decode_order_encodeBody hp, hdec, instrPrefixes_admitted, finishDecode_instr (takeTail_encode _ _ _ hrm rest) h67,
    hbuild rfl]

/-- Settles O1: the encoder's own order of the prefixes is one of those the decoder reads back. -/
theorem decodeOfEncode : Obligations.DecodeOfEncode := fun _ i rest hw =>
  ⟨decode_instrPrefixes_encodeBody hw (prefixOrder_encode i) rest,
    fun _ hp => decode_instrPrefixes_encodeBody hw hp rest⟩

/-- An instruction answered after the prefixes is of the admitted set, has just those prefixes, and its encoding is what was
read, a REX byte included (R84, R120). -/
theorem decodeAfterPrefixes_inv {m : Mode} {q : Seen} {bs rest : List Byte} {i : Instr}
    (h : decodeAfterPrefixes m q bs = .instr i rest) :
    i.wf m = true ∧ q = instrPrefixes i ∧ bs = encodeBody i ++ rest := by
  cases bs with
  | nil => cases h
  | cons b bs =>
    dsimp only [decodeAfterPrefixes] at h
    split at h
    · next hrex =>
      obtain ⟨hw, hq, hbytes⟩ := decodeFormat_inv h fun _ => hrex.1
      exact ⟨hw, hq, by simpa [rexByte_rexOfByte b hrex.2] using hbytes.symm⟩
    · obtain ⟨hw, hq, hbytes⟩ := decodeFormat_inv h (by simp)
      exact ⟨hw, hq, hbytes.symm⟩

/-- Settles O2: what `scanPrefixes` has read is an order of the prefixes it hands on, and the rest is the encoding's. -/
theorem decodeAnswersAdmittedOnly : Obligations.DecodeAnswersAdmittedOnly := by
  intro m bs rest i h
  unfold decode at h
  split at h
  · cases h
  · cases h
  · next q tl hscan =>
    obtain ⟨pre, rfl, hp, -⟩ := scanPrefixes_done hscan
    obtain ⟨hw, rfl, rfl⟩ := decodeAfterPrefixes_inv h
    exact ⟨hw, pre, hp, (List.append_assoc ..).symm⟩

/-! ### Lengths -/

/-- The order of the prefixes does not change the length of an encoding (R112). -/
theorem length_order_encodeBody {pre : List Byte} {i : Instr} (hp : prefixOrder pre (instrPrefixes i) = true) :
    (pre ++ encodeBody i).length = i.length := by
  have hpre : pre.length = (encodePrefixes i.prefixes ++ i.mandatory).length :=
    (prefixOrder_length _ _ hp rfl).trans (prefixOrder_length _ _ (prefixOrder_encode i) rfl).symm
  rw [List.length_append, hpre, ← List.length_append]
  exact length_encode i

/-- ModRM, SIB and displacement take one to six bytes (R86 to R89). -/
theorem RmField.length_bounds (rm : RmField) : 1 ≤ rm.length ∧ rm.length ≤ 6 := by
  have hdisp : ∀ d : Disp, d.length ≤ 4 := fun d => by cases d <;> simp [Disp.length]
  cases rm with
  | reg n => simp [RmField.length]
  | mem f =>
    cases f with
    | base n d | sib ss index base d => have := hdisp d; simp only [RmField.length]; omega
    | disp32 d | sibDisp32 ss index d => simp [RmField.length]

/-- There are at most two optional prefixes (R120). -/
theorem Prefixes.length_le_two (p : Prefixes) : p.length ≤ 2 := by
  simp only [Prefixes.length]
  split <;> split <;> decide

/-- The shortest encodings: the bytes before ModRM, ModRM and the immediate. -/
theorem Instr.headLength_add_two_le_length (i : Instr) : i.headLength + 2 ≤ i.length := by
  have := i.rm.length_bounds.1
  simp only [Instr.length]
  omega

/-- No encoding is longer than 15 bytes (R113). -/
theorem Instr.length_le_fifteen (i : Instr) : i.length ≤ 15 := by
  have hp := i.prefixes.length_le_two
  have hrm := i.rm.length_bounds.2
  have hhead : i.headLength ≤ 5 := by
    cases i with
    | pshufhw p rex => cases rex <;> simp [Instr.headLength]
    | _ => simp [Instr.headLength]
  simp only [Instr.length]
  omega

/-- Settles O3: the bytes taken are an order of the prefixes and the rest of the encoding, and `len` is made of parts each with
bounds of its own. -/
theorem decodeTakesTheLength : Obligations.DecodeTakesTheLength := by
  intro m bs rest i h
  obtain ⟨-, pre, hp, rfl⟩ := decodeAnswersAdmittedOnly m bs rest i h
  refine ⟨⟨_, rfl, length_order_encodeBody hp⟩, i.length_le_fifteen, ?_⟩
  have hmin := i.headLength_add_two_le_length
  cases i with
  | pshufhw p rex => cases rex <;> simp [Instr.headLength] at hmin ⊢ <;> omega
  | _ => exact hmin

/-! ### `#UD` and refusals -/

/-- The six EVEX conditions of `#UD` (R97, R181, R183). -/
theorem evexFieldsBad_iff (p0 p1 p2 : Byte) : evexFieldsBad p0 p1 p2 = true ↔
    p1.extractLsb' 3 4 ≠ 15#4 ∨ p0.extractLsb' 2 2 ≠ 0#2 ∨ p1.getLsbD 2 = false ∨ p2.extractLsb' 5 2 = 3#2 ∨
      p2.getLsbD 4 = true ∨ p2.getLsbD 3 = false := by
  simp only [evexFieldsBad, Bool.or_eq_true, bne_iff_ne, beq_iff_eq, Bool.not_eq_true', or_assoc]
  exact or_left_comm

/-- An EVEX encoding of this instruction with a bad field is `#UD` once its bytes are there (R97, R199). -/
theorem decodeEvex_of_fieldsBad {m : Mode} {q : Seen} {rexSeen : Bool} {p0 p1 p2 : Byte} {tail : List Byte}
    (hm : m = .m64 ∨ p0.extractLsb' 6 2 = 3#2) (hmap : p0.extractLsb' 0 2 = 1#2) (hpp : p1.extractLsb' 0 2 = 2#2)
    (hbad : evexFieldsBad p0 p1 p2 = true) (ht : (takeTail tail).isSome = true) :
    decodeEvex m q rexSeen (p0 :: p1 :: p2 :: opcode70 :: tail) = .ud := by
  obtain ⟨x, hx⟩ := Option.isSome_iff_exists.mp ht
  have hevex : ¬ (m = .m32 ∧ fieldHi2 p0 ≠ 3#2) := by
    rintro ⟨rfl, h⟩
    exact h (hm.resolve_left (by decide))
  rw [decodeEvex, if_neg hevex]
  simp only [hmap, hpp, bne_self_eq_false, Bool.or_self, Bool.false_eq_true, if_false]
  exact finishDecode_ud hx (by rw [hbad, Bool.or_true])

/-- Settles O6: after the prefixes, in any order, the byte `62h` selects EVEX, where the bad field is found. -/
theorem evexFieldIsUd : Obligations.EvexFieldIsUd := by
  intro m pre q p0 p1 p2 tail hp ht hm hmap hpp hbad
  rw [decode_order_cons hp (by decide), decodeAfterPrefixes_noRex _ _ _ _ (by decide), decodeFormat_62]
  exact decodeEvex_of_fieldsBad hm hmap hpp ((evexFieldsBad_iff p0 p1 p2).mpr hbad) ht

/-- The loop over the prefixes refuses a `66h` or `F2h` whatever it has read before (R121, conflict C13). -/
theorem scanPrefixes_other (q : Seen) {b : Byte} (bs : List Byte) (hb : prefixKind b = .other) :
    scanPrefixes q (b :: bs) = .reject .prefix66OrF2 := by
  simp [scanPrefixes, hb]

/-- Settles O8: the prefixes before it are read, in any order, and then the byte is refused. -/
theorem prefix66OrF2IsRefused : Obligations.Prefix66OrF2IsRefused := by
  intro m pre q b rest hp hb
  have hkind : prefixKind b = .other := by rcases hb with rfl | rfl <;> decide
  rw [decode, scanPrefixes_order hp, scanPrefixes_other q rest hkind]

end Sys2Proof

namespace Sys2Proof.Machine

/-! ### Encodings of the same instruction -/

/-- Two instructions with the same destination, immediate, vector length and way of writing leave the same vector registers
when they obtain the same source value. -/
theorem vec_eq_of_next {i j : Instr} {s t t' : State} {m : Mode} (hm : s.mode = some m)
    (hdest : instrDest j m = instrDest i m) (himm : j.imm = i.imm) (hvl : j.form.vl = i.form.vl)
    (hwrite : writeOf j s = writeOf i s) (hsrc : sourceValue i m s = sourceValue j m s)
    (hi : exec i s = .next t) (hj : exec j s = .next t') : t'.vec = t.vec := by
  simp only [vec_of_next hm hi, vec_of_next hm hj, hdest, himm, hvl, hwrite, hsrc]

/-- Settles O10: but for the length, the two formats hand the same fields to the same meaning. -/
theorem vex2AndVex3Agree : Obligations.Vex2AndVex3Agree :=
  fun _ _ _ _ _ _ _ _ _ _ hm => ⟨vec_eq_of_next hm rfl rfl rfl rfl, vec_eq_of_next hm rfl rfl rfl rfl⟩

/-- Settles O25: an outcome is made of the fields `exec_eq` names, and `W` enters none of them. -/
theorem wIsIgnored : Obligations.WIsIgnored := by
  intro p e w w' r x b z aaa reg rm imm s
  simp only [exec_eq]
  exact ⟨rfl, rfl, rfl, rfl, rfl, rfl⟩

/-! ### Displacements -/

/-- A byte times a scale of at most 64 does not overflow a displacement. -/
theorem dispValue_d8_toInt {n : Nat} (hn : n ≤ 64) (d : BitVec 8) : (dispValue n (.d8 d)).toInt = d.toInt * n := by
  have hlo : -128 ≤ d.toInt := d.le_toInt
  have hhi : d.toInt < 128 := d.toInt_lt
  have hscale : (BitVec.ofNat 64 n).toInt = n := by
    rw [BitVec.toInt_eq_toNat_cond, BitVec.toNat_ofNat]
    omega
  rw [dispValue, BitVec.toInt_mul, BitVec.toInt_signExtend_of_le (by decide), hscale]
  have hprod : -(128 * 64) ≤ d.toInt * n ∧ d.toInt * n ≤ 128 * 64 := by constructor <;> nlinarith
  apply Int.bmod_eq_of_le_mul_two <;> omega

/-- The scale of a 1-byte displacement is at most the 64 bytes of a 512-bit vector (R110). -/
theorem disp8Scale_le (f : Form) : disp8Scale f ≤ 64 := by cases f <;> decide

/-- A 4-byte displacement is sign-extended and not scaled (R88, R110). -/
theorem dispValue_d32_toInt (n : Nat) (d : BitVec 32) : (dispValue n (.d32 d)).toInt = d.toInt :=
  BitVec.toInt_signExtend_of_le (by decide)

/-- Settles O52: the scaled byte does not overflow, and the scale is that of the form. -/
theorem compressedDisplacement : Obligations.CompressedDisplacement := by
  intro f d8 d32
  refine ⟨(dispValue_d8_toInt (disp8Scale_le f) d8).trans ?_, dispValue_d32_toInt _ d32⟩
  cases f <;> rfl

/-! ### Effective addresses -/

/-- The base of an effective address: a register, the next instruction, or nothing (R88 to R90). -/
def MemOperand.baseTerm (o : MemOperand) (s : State) (ripNext : Addr) : Addr :=
  match o.base with
  | some b => s.readGpr b
  | none => if o.ripRelative then ripNext else 0

/-- The index of an effective address times its scale, as a number, or nothing (R89). -/
def MemOperand.indexTerm (o : MemOperand) (s : State) : Nat :=
  match o.index with
  | some i => (s.gpr[i]).toNat * 2 ^ o.scale.toNat
  | none => 0

/-- An effective address before it is cut is the sum of its three parts. -/
theorem MemOperand.sum_eq (o : MemOperand) (s : State) (ripNext : Addr) :
    o.sum s ripNext = o.baseTerm s ripNext + BitVec.ofNat 64 (o.indexTerm s) + o.disp := by
  have hshift (i : Fin 16) : s.readGpr i <<< o.scale.toNat = BitVec.ofNat 64 ((s.gpr[i]).toNat * 2 ^ o.scale.toNat) :=
    BitVec.eq_of_toNat_eq (by simp [State.readGpr, Nat.shiftLeft_eq])
  unfold MemOperand.sum MemOperand.indexTerm
  cases o.index with
  | none => rfl
  | some i => simp only [hshift]; rfl

/-- The width of an address: 64 bits in `M64` without `67h`, else 32 (R88, R90). -/
def addressWidth (m : Mode) (a67 : Bool) : Nat := if m = .m64 ∧ a67 = false then 64 else 32

/-- An effective address is the sum of its parts modulo the address width (R88 to R90). -/
theorem effectiveAddress_toNat (m : Mode) (a67 : Bool) (o : MemOperand) (s : State) (ripNext : Addr) :
    (effectiveAddress m a67 o s ripNext).toNat =
      ((o.baseTerm s ripNext).toNat + o.indexTerm s + o.disp.toNat) % 2 ^ addressWidth m a67 := by
  have hsum : (o.sum s ripNext).toNat = ((o.baseTerm s ripNext).toNat + o.indexTerm s + o.disp.toNat) % 2 ^ 64 := by
    rw [MemOperand.sum_eq, BitVec.toNat_add, BitVec.toNat_add, BitVec.toNat_ofNat]
    omega
  rw [effectiveAddress, addressWidth]
  split
  · exact hsum
  · rw [BitVec.toNat_setWidth, BitVec.toNat_setWidth]
    omega

/-- The index term of an encoded index, whose number 4 names none (R89). -/
theorem indexTerm_of_indexReg {o : MemOperand} {m : Mode} {e : Ext} {i : BitVec 3} (h : o.index = indexReg m e i) (s : State) :
    o.indexTerm s = if gprNum m e.x i = 4 then 0 else (s.gpr[gprNum m e.x i]).toNat * 2 ^ o.scale.toNat := by
  by_cases h4 : gprNum m e.x i = 4 <;> simp [MemOperand.indexTerm, h, indexReg, h4]

/-- Settles O53: each form gives the sum its own base, index and displacement. -/
theorem effectiveAddresses : Obligations.EffectiveAddresses := by
  intro m a67 e n s ripNext b i ss d d32 width hw
  obtain rfl : width = addressWidth m a67 := hw
  simp only [effectiveAddress_toNat]
  refine ⟨?_, ?_, ?_, ?_⟩
  · rfl
  · cases m <;> rfl
  · rw [indexTerm_of_indexReg rfl]
    rfl
  · rw [indexTerm_of_indexReg rfl]
    simp [memOperand, MemOperand.baseTerm]

/-! ### The place of an instruction's memory source -/

/-- In `M64` a general register number is four bits (R103). -/
@[simp] theorem gprNum_m64_val (hi : Bool) (low : BitVec 3) : (gprNum .m64 hi low).val = 8 * hi.toNat + low.toNat := by
  revert hi low
  decide

/-- In `M32` a general register number is the three bits of the field (R30, assumption 26). -/
@[simp] theorem gprNum_m32_val (hi : Bool) (low : BitVec 3) : (gprNum .m32 hi low).val = low.toNat := by
  revert hi low
  decide

/-- A general register number in either mode (R103). -/
theorem gprNum_val (m : Mode) (hi : Bool) (low : BitVec 3) :
    (gprNum m hi low).val = (if m = .m64 then 8 * hi.toNat else 0) + low.toNat := by
  cases m <;> simp

/-- Modulo the address width a displacement may be taken as a signed number. -/
theorem add_toNat_emod (a : Nat) (d : Addr) (m : Mode) (a67 : Bool) :
    (((a + d.toNat) % 2 ^ addressWidth m a67 : Nat) : Int) = ((a : Int) + d.toInt) % 2 ^ addressWidth m a67 := by
  rw [BitVec.toInt_eq_toNat_cond, addressWidth]
  split <;> split <;> omega

/-- The parts of the effective address of an instruction's memory source. -/
def instrOperand (i : Instr) (m : Mode) (fld : MemField) : MemOperand := memOperand m i.ext (disp8Scale i.form) fld

/-- The effective address of an instruction's memory source, its displacement as a signed number (R88 to R90). -/
theorem instrPlace_ea (i : Instr) (m : Mode) (fld : MemField) (s : State) :
    ((instrPlace i m fld s).ea.toNat : Int) =
      ((((instrOperand i m fld).baseTerm s (s.nextRip m i.length)).toNat + (instrOperand i m fld).indexTerm s : Nat) +
        (instrOperand i m fld).disp.toInt) % 2 ^ addressWidth m i.prefixes.a67 := by
  rw [← add_toNat_emod, ← effectiveAddress_toNat]
  rfl

/-- In `M64` the next instruction's address is a sum of 64 bits (R28). -/
theorem State.nextRip_m64_toNat (s : State) (len : Nat) : (s.nextRip .m64 len).toNat = (s.rip.toNat + len) % 2 ^ 64 := by
  simp [State.nextRip]

/-- `mod = 00b, rm = 101b` counts from the next instruction in `M64` and from nothing in `M32` (R88, R90). -/
theorem baseTerm_disp32_toNat (m : Mode) (e : Ext) (n : Nat) (d : BitVec 32) (s : State) (len : Nat) :
    ((memOperand m e n (.disp32 d)).baseTerm s (s.nextRip m len)).toNat =
      if m = .m64 then (s.rip.toNat + len) % 2 ^ 64 else 0 := by
  cases m with
  | m64 => exact s.nextRip_m64_toNat len
  | m32 => rfl

/-- Settles O56: the operand's parts in numbers, for each form, with the registers and the scale of the instruction. -/
theorem placeOfAMemorySource : Obligations.PlaceOfAMemorySource := by
  intro i m s b x ss d d32 rb rx width disp index hw hrb hrx hdisp hindex
  obtain rfl : width = addressWidth m i.prefixes.a67 := hw
  obtain rfl : rb = gprNum m i.ext.b b := Fin.ext (hrb.trans (gprNum_val ..).symm)
  obtain rfl : rx = gprNum m i.ext.x x := Fin.ext (hrx.trans (gprNum_val ..).symm)
  have hd : (dispValue (disp8Scale i.form) d).toInt = disp := by
    subst hdisp
    cases d with
    | none => rfl
    | d8 v => exact (compressedDisplacement i.form v 0).1
    | d32 v => exact dispValue_d32_toInt _ v
  have hd32 : (d32.signExtend 64).toInt = d32.toInt := BitVec.toInt_signExtend_of_le (by decide)
  have hix : ∀ o : MemOperand, o.index = indexReg m i.ext x → o.scale = ss → (o.indexTerm s : Int) = index := by
    rintro o ho rfl
    rw [indexTerm_of_indexReg ho, hindex]
    split <;> simp
  simp only [instrPlace_ea, instrOperand, Nat.cast_add]
  refine ⟨?_, ?_, ?_, ?_⟩
  · simp [memOperand, MemOperand.baseTerm, MemOperand.indexTerm, State.readGpr, hd]
  · rw [hix _ rfl rfl, ← hd]
    rfl
  · rw [hix _ rfl rfl, ← hd32]
    simp [memOperand, MemOperand.baseTerm]
  · rw [baseTerm_disp32_toNat, ← hd32]
    cases m with
    | m64 =>
      simp only [memOperand, MemOperand.indexTerm, addressWidth, if_true, true_and]
      split <;> omega
    | m32 => rfl

/-! ### Segments and linear addresses -/

/-- The default segment, by the number of the base register (R104). -/
theorem defaultSegment_eq (o : MemOperand) :
    defaultSegment o = if o.base.map Fin.val = some 4 ∨ o.base.map Fin.val = some 5 then .ss else .ds := by
  obtain ⟨base, index, scale, disp, rel⟩ := o
  cases base <;> simp [defaultSegment, Fin.ext_iff]

/-- In `M32` the override has its effect (R104). -/
theorem sourceSegment_m32 {p : Prefixes} {n : SegName} (h : p.seg = some n) (o : MemOperand) : sourceSegment .m32 p o = n := by
  simp [sourceSegment, h]

/-- An `FS` or `GS` override has its effect in either mode (R104). -/
theorem sourceSegment_fs_gs {p : Prefixes} {n : SegName} (h : p.seg = some n) (hn : n = .fs ∨ n = .gs) (m : Mode)
    (o : MemOperand) : sourceSegment m p o = n := by
  cases m <;> simp [sourceSegment, h, hn]

/-- Without an override that has an effect, the segment is the default one (R104). -/
theorem sourceSegment_default {m : Mode} {p : Prefixes}
    (h : p.seg = none ∨ m = .m64 ∧ p.seg ≠ some .fs ∧ p.seg ≠ some .gs) (o : MemOperand) :
    sourceSegment m p o = defaultSegment o := by
  obtain hnone | ⟨rfl, hfs, hgs⟩ := h
  · simp [sourceSegment, hnone]
  · cases hseg : p.seg with
    | none => simp [sourceSegment, hseg]
    | some n =>
      have hn : ¬ (n = .fs ∨ n = .gs) := by rintro (rfl | rfl) <;> contradiction
      simp [sourceSegment, hseg, hn]

/-- Settles O54: the override where it has an effect, else the default of the base register, whose number is the
encoding's. -/
theorem sourceSegments : Obligations.SourceSegments := by
  refine ⟨fun p o => ⟨fun n hn => sourceSegment_m32 hn o, fun h => sourceSegment_fs_gs h (.inl rfl) _ o,
    fun h => sourceSegment_fs_gs h (.inr rfl) _ o, fun m h => ?_⟩, ?_⟩
  · rw [sourceSegment_default h o]
    exact ⟨fun hss => if_pos hss, fun h4 h5 => if_neg (not_or.mpr ⟨h4, h5⟩)⟩
  · intro i m s fld base hbase
    refine ⟨fun n hn hmode => ?_, fun h => ?_⟩
    · obtain rfl | hfsgs := hmode
      · exact sourceSegment_m32 hn _
      · exact sourceSegment_fs_gs hn hfsgs m _
    · have hnum : (instrOperand i m fld).base.map Fin.val = base := by
        subst hbase
        cases fld <;> simp [instrOperand, memOperand, gprNum_val]
      rw [← hnum, ← defaultSegment_eq]
      exact sourceSegment_default h _

/-- Settles O55: the sums of 64 bits, cut to 32 in `M32`. -/
theorem linearAddresses : Obligations.LinearAddresses := by
  refine ⟨fun seg ea s => ⟨?_, fun hfs hgs => ?_, fun h => ?_⟩, fun _ _ _ _ => rfl⟩
  · simp only [linearAddress, BitVec.toNat_setWidth, BitVec.toNat_add]
    omega
  · exact if_neg (not_or.mpr ⟨hfs, hgs⟩)
  · simp [linearAddress, h]

end Sys2Proof.Machine
end

section
/-! Proofs of family `40_pshufhw.md`: the lane, vector and mask functions piece by piece; what each row of the opcode table
leaves in its destination; and the step that runs the instruction at `rip`. -/

namespace Sys2Proof.Machine

/-! ### The lane function -/

/-- Settles O11: the copied quadword and the four selected words are read from `shufHi`'s concatenation. -/
theorem laneFunction : Obligations.LaneFunction :=
  fun s imm => ⟨shufHi_low s imm, shufHi_high s imm⟩

/-- The lane function twice selects each word through both immediates. -/
theorem shufHi_shufHi {a b c : Byte} (h : ∀ n, n < 4 → immField a (immField b n).toNat = immField c n) (s : Lane) :
    shufHi (shufHi s a) b = shufHi s c := by
  refine lane_ext _ _ (by simp only [shufHi_low]) fun n hn => ?_
  rw [shufHi_high _ _ n hn, shufHi_high _ _ n hn, highWord, shufHi_high s a _ (immField b n).isLt, h n hn]

/-- `E4h` selects every word in its own place (R163). -/
theorem shufHi_E4 (s : Lane) : shufHi s 0xE4 = s := by
  have hfield : ∀ n, n < 4 → (immField 0xE4 n).toNat = n := by decide
  refine lane_ext _ _ (shufHi_low s _) fun n hn => ?_
  rw [shufHi_high s _ n hn, highWord, hfield n hn]

/-- An immediate undoes another when, word by word, the two select as `E4h` does. -/
theorem shufHi_undo {a b : Byte} (h : ∀ n, n < 4 → immField a (immField b n).toNat = immField 0xE4 n) (s : Lane) :
    shufHi (shufHi s a) b = s := by
  rw [shufHi_shufHi h, shufHi_E4]

/-- Settles O14: each pair of immediates is checked on its four fields. -/
theorem notableImmediates : Obligations.NotableImmediates := fun s =>
  ⟨shufHi_E4 s, shufHi_undo (by decide) s, shufHi_undo (by decide) s, shufHi_undo (by decide) s,
    shufHi_undo (by decide) s, shufHi_undo (by decide) s⟩

/-! ### The vector function -/

/-- Lane `l` of the vector function is the lane function of lane `l` (R142). -/
theorem lane_shufHiVec {vl : VecLen} {l : Nat} (hl : l < vl.bits / 128) (s : Vec) (imm : Byte) :
    lane (shufHiVec vl s imm) l = shufHi (lane s l) imm :=
  have hlanes := vl.bits_le
  lane_ofPieces _ (by omega) _ l hl

/-- Settles O12: the vector function is made of its lanes. -/
theorem vectorFunctionLanes : Obligations.VectorFunctionLanes := fun _ s imm _ hl => lane_shufHiVec hl s imm

/-- A slice within a lane is that slice of the vector. -/
theorem extract_lane (v : Vec) (l : Nat) {start len : Nat} (h : start + len ≤ 128) :
    (lane v l).extractLsb' start len = v.extractLsb' (128 * l + start) len := by
  ext i hi
  have hlt : start + i < 128 := by omega
  simp [lane, hlt, Nat.add_assoc]

/-- A slice of a vector shifted right lies that much higher in the vector. -/
theorem extract_ushiftRight (v : Vec) (k start len : Nat) :
    (v >>> k).extractLsb' start len = v.extractLsb' (k + start) len := by
  ext i hi
  simp [Nat.add_assoc]

/-- Settles O13: the slice of the shifted source is the word the lane function selects. -/
theorem pageFormula : Obligations.PageFormula := by
  intro vl s imm l hl
  have hlane := lane_shufHiVec hl s imm
  refine ⟨?_, fun n hn => ?_⟩
  · have hlow := congrArg (BitVec.extractLsb' 0 64) hlane
    rwa [shufHi_low, extract_lane _ _ (by decide), extract_lane _ _ (by decide)] at hlow
  · have hhigh := congrArg (BitVec.extractLsb' (64 + 16 * n) 16) hlane
    have hfield := (immField imm n).isLt
    rw [shufHi_high _ _ n hn, highWord, extract_lane _ _ (by omega), extract_lane _ _ (by omega)] at hhigh
    rw [extract_ushiftRight, Nat.add_assoc, hhigh, immField]
    congr 1
    omega

/-! ### Write-masking -/

/-- Settles O15: `maskWords` is made of its words. -/
theorem maskWordsPerWord : Obligations.MaskWordsPerWord := by
  intro vl old t mask aaa z j hj
  have hbits := vl.bits_le
  have hwords := vl.words_eq
  refine (word_ofPieces vl.words (by omega) _ j hj).trans ?_
  cases z <;> rfl

/-- The `KL` words of a vector make its low `VL` bits. -/
theorem ofPieces_word (vl : VecLen) (v : Vec) : ofPieces 16 vl.words (word v) = lowBits vl v := by
  have hbits := vl.bits_le
  have hwords := vl.words_eq
  refine vec_ext vl _ _ (fun i hi => getLsbD_ofPieces_ge 16 (by decide) _ _ i (hwords ▸ hi))
    (fun i hi => by simp [Nat.not_lt.mpr hi]) fun j hj => ?_
  exact (word_ofPieces vl.words (by omega) _ j hj).trans (word_lowBits vl v j hj).symm

/-- With no mask, or with every mask bit that counts set, the result is written (R156, R164). -/
theorem maskWords_of_written {vl : VecLen} {mask : BitVec 64} {aaa : BitVec 3}
    (h : ∀ j, j < vl.words → aaa = 0#3 ∨ mask.getLsbD j = true) (old t : Vec) (z : Bool) :
    maskWords vl old t mask aaa z = lowBits vl t :=
  (ofPieces_congr fun j hj => if_pos (h j hj)).trans (ofPieces_word vl t)

/-- With no mask bit that counts set, merging keeps the old words (R164). -/
theorem maskWords_merge_none {vl : VecLen} {mask : BitVec 64} {aaa : BitVec 3} (ha : aaa ≠ 0#3)
    (h : ∀ j, j < vl.words → mask.getLsbD j = false) (old t : Vec) : maskWords vl old t mask aaa false = lowBits vl old :=
  (ofPieces_congr fun j hj => by simp [ha, h j hj]).trans (ofPieces_word vl old)

/-- Zeroing takes nothing from the old destination (R156). -/
theorem maskWords_zeroing (vl : VecLen) (old t : Vec) (mask : BitVec 64) (aaa : BitVec 3) :
    maskWords vl old t mask aaa true = maskWords vl 0 t mask aaa false :=
  ofPieces_congr fun j _ => by simp [word]

/-- With no mask bit that counts set, zeroing leaves zero (R164). -/
theorem maskWords_zero_none {vl : VecLen} {mask : BitVec 64} {aaa : BitVec 3} (ha : aaa ≠ 0#3)
    (h : ∀ j, j < vl.words → mask.getLsbD j = false) (old t : Vec) : maskWords vl old t mask aaa true = 0 := by
  rw [maskWords_zeroing, maskWords_merge_none ha h]
  exact lowBits_eq_self vl 0 fun i _ => BitVec.getLsbD_zero

/-- Which opmask register a mask came from does not matter, so long as it is not number 0 (R156). -/
theorem maskWords_congr_aaa {aaa aaa' : BitVec 3} (ha : aaa ≠ 0#3) (ha' : aaa' ≠ 0#3) (vl : VecLen) (old t : Vec)
    (mask : BitVec 64) (z : Bool) : maskWords vl old t mask aaa z = maskWords vl old t mask aaa' z :=
  ofPieces_congr fun j _ => by simp [ha, ha']

/-- Settles O16: with the mask bits below `KL` equal, each word is chosen alike. -/
theorem maskCorners : Obligations.MaskCorners := by
  intro vl old t mask mask' aaa z ha
  refine ⟨fun h => ⟨maskWords_merge_none ha h old t, maskWords_zero_none ha h old t⟩, fun h => ?_,
    fun h => maskWords_congr_mask h old t aaa z⟩
  have hones : maskWords vl old t mask aaa z = lowBits vl t := maskWords_of_written (fun j hj => .inr (h j hj)) old t z
  have hunmasked : maskWords vl old t mask 0#3 z = lowBits vl t := maskWords_of_written (fun _ _ => .inl rfl) old t z
  exact ⟨hones.trans hunmasked.symm, hones⟩

/-! ### What a completed instruction leaves in its destination and in `rip` -/

/-- An EVEX row masks the words of its own length by its own opmask register (R153 to R155). -/
theorem writeOf_evex {i : Instr} {aaa : BitVec 3} {z : Bool} (hi : i.mask = some (aaa, z)) (s : State) (old t : Vec) :
    writeOf i s old t = maskWords i.form.vl old t (s.readMask aaa) aaa z := by
  cases i with
  | pshufhw | vpshufhw128Vex2 | vpshufhw128Vex3 | vpshufhw256Vex2 | vpshufhw256Vex3 => cases hi
  | vpshufhw128Evex | vpshufhw256Evex | vpshufhw512Evex => cases hi; rfl

/-- With no mask an EVEX row writes the whole result (R156, R158). -/
theorem writeOf_unmasked {i : Instr} {z : Bool} (hi : i.mask = some (0#3, z)) (s : State) (old v : Vec) (imm : Byte) :
    writeOf i s old (shufHiVec i.form.vl v imm) = shufHiVec i.form.vl v imm := by
  rw [writeOf_evex hi, maskWords_of_written fun _ _ => .inl rfl, lowBits_shufHiVec _ _ le_rfl]

/-- What an instruction that completes leaves in its destination register. -/
theorem dest_of_next {i : Instr} {s t : State} {m : Mode} (hm : s.mode = some m) (h : exec i s = .next t) :
    t.vec[instrDest i m] = lowBits s.cfg.maxvl
      (writeOf i s (s.readVec (instrDest i m)) (shufHiVec i.form.vl (sourceValue i m s) i.imm)) := by
  rw [vec_of_next hm h]
  exact Vector.getElem_set_self _

/-- A completed instruction moves `rip` past itself (R160). -/
theorem rip_of_next {i : Instr} {s t : State} {m : Mode} (hm : s.mode = some m) (h : exec i s = .next t) :
    t.rip = s.nextRip m i.length := by
  obtain ⟨m', _, hm', -, -, rfl⟩ := (exec_next i s t).mp h
  obtain rfl : m = m' := by simpa [hm] using hm'
  rw [State.advance_rip, State.writeVec_nextRip]

/-- In `M32` the next instruction pointer is a sum modulo 2^32 (R28). -/
theorem State.nextRip_m32_toNat (s : State) (len : Nat) : (s.nextRip .m32 len).toNat = (s.rip.toNat + len) % 2 ^ 32 := by
  simp only [State.nextRip, BitVec.toNat_setWidth, BitVec.toNat_add, BitVec.toNat_ofNat]
  omega

/-- Settles O27: `rip` moves to the next instruction pointer, which is the sum in the width of the mode. -/
theorem ripAdvances : Obligations.RipAdvances := by
  intro i s t m hm h
  rw [rip_of_next hm h]
  exact ⟨fun h64 => h64 ▸ s.nextRip_m64_toNat i.length, fun h32 => h32 ▸ s.nextRip_m32_toNat i.length⟩

/-- A VEX row whose length the registers have leaves the vector function of its source (R151, R152). -/
theorem dest_of_next_vex {i : Instr} {s t : State} {m : Mode} (hi : i.form = .vex128 ∨ i.form = .vex256)
    (hvl : i.form.vl.bits ≤ s.cfg.maxvl.bits) (hm : s.mode = some m) (h : exec i s = .next t) :
    t.vec[instrDest i m] = shufHiVec i.form.vl (sourceValue i m s) i.imm := by
  rw [dest_of_next hm h, writeOf_vex i s hi, lowBits_shufHiVec _ _ hvl]

/-- An EVEX row leaves the vector function of its source under the mask (R153 to R155). -/
theorem dest_of_next_evex {i : Instr} {s t : State} {m : Mode} {aaa : BitVec 3} {z : Bool} (hi : i.mask = some (aaa, z))
    (hw : s.cfg.wf = true) (hm : s.mode = some m) (h : exec i s = .next t) :
    t.vec[instrDest i m] = maskWords i.form.vl (s.vec[instrDest i m])
      (shufHiVec i.form.vl (sourceValue i m s) i.imm) (s.k[aaa.toFin]) aaa z := by
  rw [dest_of_next hm h, writeOf_evex hi, lowBits_maskWords _ _ (vl_le_maxvl s i.form hw (ready_of_next h))]
  rfl

/-! ### The result of each row -/

section Completes
variable {i : Instr} {s : State} {m : Mode} (hm : s.mode = some m) (hr : s.ready i.form = true)
  (hs : sourceOk i m s = true)
include hm hr hs

/-- Ready and with an obtainable source, an instruction completes, and only its destination and `rip` change. -/
theorem exec_completes : ∃ t, exec i s = .next t ∧ t.rip = s.nextRip m i.length ∧ OnlyVecAndRip (instrDest i m) s t := by
  have h := exec_of_ready i s m hm hr hs
  exact ⟨_, h, rip_of_next hm h, onlyVecAndRip_of_next hm h⟩

/-- An EVEX row completes with each word the masked one and nothing above its length. -/
theorem exec_completes_evex {aaa : BitVec 3} {z : Bool} (hi : i.mask = some (aaa, z)) (hw : s.cfg.wf = true) :
    ∃ t, exec i s = .next t ∧
      (∀ j, j < i.form.vl.words → (t.vec[instrDest i m]).extractLsb' (16 * j) 16 =
        if aaa = 0#3 ∨ (s.k[aaa.toFin]).getLsbD j = true then
          (shufHiVec i.form.vl (sourceValue i m s) i.imm).extractLsb' (16 * j) 16
        else if z = false then (s.vec[instrDest i m]).extractLsb' (16 * j) 16
        else 0#16) ∧
      (∀ j, i.form.vl.bits ≤ j → (t.vec[instrDest i m]).getLsbD j = false) ∧
      t.rip = s.nextRip m i.length ∧ OnlyVecAndRip (instrDest i m) s t := by
  obtain ⟨t, h, hrip, honly⟩ := exec_completes hm hr hs
  refine ⟨t, h, ?_, ?_, hrip, honly⟩ <;> rw [dest_of_next_evex hi hw hm h] <;> intro j hj
  · exact maskWordsPerWord _ _ _ _ _ _ j hj
  · exact getLsbD_maskWords_ge _ _ _ _ _ _ j hj

end Completes

/-- Cutting a value to `VL` bits keeps each of its lanes below `VL`. -/
theorem lane_lowBits {vl : VecLen} {l : Nat} (hl : l < vl.bits / 128) (v : Vec) : lane (lowBits vl v) l = lane v l := by
  have hlanes := vl.bits_le
  rw [lane, lowBits, BitVec.extractLsb'_setWidth_of_le (by omega), BitVec.extractLsb'_setWidth_of_le (by omega), lane]

/-- The legacy form takes its low lane from the result (R150). -/
theorem lane_keepUpper (old t : Vec) : lane (keepUpper old t) 0 = lane t 0 :=
  BitVec.extractLsb'_append_eq_right

/-- Settles O17: below 128 the destination is the result's lane, above it the old register's bits. -/
theorem pshufhwResult : Obligations.PshufhwResult := by
  rintro p rex reg rm imm s m d hm hr hs rfl
  obtain ⟨t, h, hrip, honly⟩ := exec_completes (i := .pshufhw p rex reg rm imm) hm hr hs
  have hmax := s.cfg.maxvl.le_bits
  refine ⟨t, h, ?_, fun j hlo hhi => ?_, hrip, honly⟩ <;> rw [dest_of_next hm h]
  · exact (lane_lowBits (by omega) _).trans ((lane_keepUpper _ _).trans (lane_shufHiVec (vl := .v128) (by decide) _ imm))
  · simp [writeOf, getLsbD_keepUpper, Nat.not_lt.mpr hlo, hhi, State.readVec]

/-- Settles O18: the destination is the vector function of one lane, which every `MAXVL` has. -/
theorem vex128Result : Obligations.Vex128Result := by
  rintro i s m d hi hm hr hs rfl
  obtain ⟨t, h, hrip, honly⟩ := exec_completes hm (hi ▸ hr) hs
  refine ⟨t, h, ?_, ?_, hrip, honly⟩ <;>
    rw [dest_of_next_vex (.inl hi) (by rw [hi]; exact s.cfg.maxvl.le_bits) hm h, hi]
  · exact lane_shufHiVec (vl := .v128) (l := 0) (by decide) _ _
  · exact getLsbD_shufHiVec_ge .v128 _ _

/-- Settles O19: the destination is the vector function of two lanes, which a well-formed configuration has. -/
theorem vex256Result : Obligations.Vex256Result := by
  rintro i s m d hi hw hm hr hs rfl
  obtain ⟨t, h, hrip, honly⟩ := exec_completes hm (hi ▸ hr) hs
  refine ⟨t, h, ?_, ?_, ?_, hrip, honly⟩ <;>
    rw [dest_of_next_vex (.inr hi) (vl_le_maxvl s i.form hw (hi ▸ hr)) hm h, hi]
  · exact lane_shufHiVec (vl := .v256) (l := 0) (by decide) _ _
  · exact lane_shufHiVec (vl := .v256) (l := 1) (by decide) _ _
  · exact getLsbD_shufHiVec_ge .v256 _ _

/-- Settles O20: the masked words of one lane. -/
theorem evex128Result : Obligations.Evex128Result := by
  rintro p e w z aaa reg rm imm s m d hw hm hr hs rfl
  exact exec_completes_evex (i := .vpshufhw128Evex p e w z aaa reg rm imm) hm hr hs rfl hw

/-- Settles O21: the masked words of two lanes. -/
theorem evex256Result : Obligations.Evex256Result := by
  rintro p e w z aaa reg rm imm s m d hw hm hr hs rfl
  exact exec_completes_evex (i := .vpshufhw256Evex p e w z aaa reg rm imm) hm hr hs rfl hw

/-- Settles O22: the masked words of four lanes, the whole register. -/
theorem evex512Result : Obligations.Evex512Result := by
  rintro p e w z aaa reg rm imm s m d hw hm hr hs rfl
  obtain ⟨t, h, hwords, -, hrip, honly⟩ :=
    exec_completes_evex (i := .vpshufhw512Evex p e w z aaa reg rm imm) hm hr hs rfl hw
  exact ⟨t, h, hwords, hrip, honly⟩

/-! ### Encodings and intrinsics with the same effect -/

/-- Settles O23: the intrinsic's mask stands for `K[aaa]`, and a zeroing mask takes nothing from the old destination. -/
theorem intrinsicsAgree : Obligations.IntrinsicsAgree := by
  intro i s t m aaa z hw hm hi h _
  rw [dest_of_next_evex hi hw hm h]
  by_cases ha : aaa = 0#3
  · rw [if_pos ha, maskWords_of_written fun _ _ => .inl ha, lowBits_shufHiVec _ _ le_rfl, shufflehiEpi16]
  · rw [if_neg ha, maskWords_congr_aaa ha (by decide : 1#3 ≠ 0#3)]
    cases z with
    | false => rfl
    | true => rw [if_neg (by decide), maskzShufflehiEpi16, maskWords_zeroing, maskWords_zeroing]

/-- Settles O24: with no mask both rows write the whole vector function of the same source. -/
theorem vexAndEvexAgree : Obligations.VexAndEvexAgree := by
  intro i j s t t' m z hm hforms hj hdest himm hsrc h h'
  have hvl : i.form.vl = j.form.vl := by
    obtain ⟨hi, hj⟩ | ⟨hi, hj⟩ := hforms <;> rw [hi, hj] <;> rfl
  have hvex := writeOf_vex i s (hforms.imp And.left And.left)
  simp only [vec_of_next hm h, vec_of_next hm h', hvex, writeOf_unmasked hj, hdest, himm, hsrc, hvl]

/-! ### The step -/

/-- Settles O35: with nothing armed and the bytes decoded, the fetch hands the instruction to its meaning. -/
theorem stepRunsTheDecoded : Obligations.StepRunsTheDecoded := by
  intro s m i rest hd hm hdec
  simp [step, State.fetchDecode, hd, hm, hdec]

/-- Settles O36: the fetch reads the encoding first, which the decoder reads back whatever bytes follow. -/
theorem stepRunsTheEncoded : Obligations.StepRunsTheEncoded := by
  intro s m i hd hm hw hbytes
  have hlen := length_encode i
  obtain ⟨rest, hfetch⟩ : ∃ rest, (s.fetch m).1 = encode i ++ rest :=
    s.fetchFrom_eq m (encode i) maxLength 0 (hlen ▸ i.length_le_fifteen) fun k hk => by
      rw [Nat.zero_add]
      exact hbytes k (hlen ▸ hk)
  refine stepRunsTheDecoded s m i rest hd hm ?_
  rw [hfetch]
  exact (decodeOfEncode m i rest hw).1

/-- Settles O4: the decoder is run on each of the four words. -/
theorem sampleWordsDecode : Obligations.SampleWordsDecode := ⟨rfl, rfl, rfl, rfl⟩

end Sys2Proof.Machine
end

section
/-! Proofs of family `60_exceptions.md`: the encodings the decoder answers with `#UD`, the tests of the state that raise `#UD` and
`#NM`, what an instruction can raise and in what order, what each exception records, and what does not enter a fault. -/

namespace Sys2Proof
open Machine

/-! ### Encodings that are `#UD` -/

/-- In `M32` a VEX format needs bits 7:6 of the byte after `C5h` or `C4h` set; in `M64` it does not (R95). -/
theorem not_m32_and_fieldHi2_ne {m : Mode} {b : Byte} (h : m = .m64 ∨ b.extractLsb' 6 2 = 3#2) :
    ¬ (m = .m32 ∧ fieldHi2 b ≠ 3#2) := by
  rintro ⟨rfl, hne⟩
  exact hne (h.resolve_left (by decide))

/-- A two-byte VEX encoding of this instruction with `vvvv` not `1111b` is `#UD` once its bytes are there (R181, R199). -/
theorem decodeVex2_of_vvvv {m : Mode} {q : Seen} {rexSeen : Bool} {v : Byte} {tail : List Byte}
    (hm : m = .m64 ∨ v.extractLsb' 6 2 = 3#2) (hpp : v.extractLsb' 0 2 = 2#2) (hv : v.extractLsb' 3 4 ≠ 15#4)
    (ht : (takeTail tail).isSome = true) : decodeVex2 m q rexSeen (v :: opcode70 :: tail) = .ud := by
  obtain ⟨x, hx⟩ := Option.isSome_iff_exists.mp ht
  rw [decodeVex2, if_neg (not_m32_and_fieldHi2_ne hm)]
  simp only [hpp, bne_self_eq_false, Bool.or_self, Bool.false_eq_true, if_false]
  exact finishDecode_ud hx (by rw [bne_iff_ne.mpr hv, Bool.or_true])

/-- A three-byte VEX encoding of this instruction with `vvvv` not `1111b` is `#UD` once its bytes are there (R181, R199). -/
theorem decodeVex3_of_vvvv {m : Mode} {q : Seen} {rexSeen : Bool} {v1 v2 : Byte} {tail : List Byte}
    (hm : m = .m64 ∨ v1.extractLsb' 6 2 = 3#2) (hmap : v1.extractLsb' 0 5 = 1#5) (hpp : v2.extractLsb' 0 2 = 2#2)
    (hv : v2.extractLsb' 3 4 ≠ 15#4) (ht : (takeTail tail).isSome = true) :
    decodeVex3 m q rexSeen (v1 :: v2 :: opcode70 :: tail) = .ud := by
  obtain ⟨x, hx⟩ := Option.isSome_iff_exists.mp ht
  rw [decodeVex3, if_neg (not_m32_and_fieldHi2_ne hm)]
  simp only [hmap, hpp, bne_self_eq_false, Bool.or_self, Bool.false_eq_true, if_false]
  exact finishDecode_ud hx (by rw [bne_iff_ne.mpr hv, Bool.or_true])

/-- Settles O5: after the prefixes, in any order, `C5h` or `C4h` selects the VEX format, where the bad `vvvv` is found. -/
theorem vexVvvvIsUd : Obligations.VexVvvvIsUd := by
  intro m pre q v1 v2 tail hp ht hpp hv
  refine ⟨fun hm => ?_, fun hm hmap => ?_⟩
  · rw [decode_order_cons hp (by decide), decodeAfterPrefixes_noRex _ _ _ _ (by decide), decodeFormat_C5]
    exact decodeVex2_of_vvvv hm hpp hv ht
  · rw [decode_order_cons hp (by decide), decodeAfterPrefixes_noRex _ _ _ _ (by decide), decodeFormat_C4]
    exact decodeVex3_of_vvvv hm hmap hpp hv ht

/-- An instruction of the admitted set has an admitted source field (R120). -/
theorem Instr.rm_wf {m : Mode} {i : Instr} (hw : i.wf m = true) : i.rm.wf = true := by
  simp only [Instr.wf, Bool.and_eq_true] at hw
  obtain ⟨⟨⟨⟨hrm, -⟩, -⟩, -⟩, -⟩ := hw
  exact hrm

/-- What is admitted in `M32` is admitted in `M64`, whose limits are fewer (R84, R95, R99, R120). -/
theorem Instr.wf_m64 {m : Mode} {i : Instr} (hw : i.wf m = true) : i.wf .m64 = true := by
  simp only [Instr.wf, Bool.and_eq_true] at hw
  obtain ⟨⟨⟨⟨hrm, -⟩, -⟩, -⟩, hmask⟩ := hw
  refine Instr.wf_of hrm ?_ (by simp) (by simp) hmask
  cases i <;> rfl

/-- LOCK before an encoding, and `F3h` before one of a format other than LEG, makes it `#UD` (R192). -/
theorem decode_order_encodeBody_ud {m : Mode} {i : Instr} {pre : List Byte} {q : Seen} (hw : i.wf m = true)
    (hp : prefixOrder pre q = true) (hleg : i.form = .leg → q.f3 = true)
    (hbad : (q.lock || (q.f3 && i.form != .leg)) = true) (rest : List Byte) :
    decode m (pre ++ encodeBody i ++ rest) = .ud := by
  obtain ⟨build, -, hdec⟩ := decodeAfterPrefixes_encodeBody hw hleg rest
  rw [decode_order_encodeBody hp, hdec]
  exact finishDecode_ud (takeTail_encode _ _ _ (Instr.rm_wf hw) rest) hbad

/-- In `M64` a REX byte after the prefixes is handed to the format that follows (R84). -/
theorem decodeAfterPrefixes_rexByte (q : Seen) (r : Rex) (bs : List Byte) :
    decodeAfterPrefixes .m64 q (rexByte r :: bs) = decodeFormat .m64 q (some r) bs := by
  obtain ⟨w, r, x, b⟩ := r
  simp only [decodeAfterPrefixes, rexByte_top, rexOfByte_rexByte, and_self, if_true]

/-- In `M64` a REX byte directly before a VEX or EVEX encoding, after all prefixes, makes it `#UD` (R192). -/
theorem decode_order_rexByte_encodeBody_ud {i : Instr} {pre : List Byte} {q : Seen} (hw : i.wf .m64 = true)
    (hp : prefixOrder pre q = true) (hf : i.form ≠ .leg) (r : Rex) (rest : List Byte) :
    decode .m64 (pre ++ rexByte r :: encodeBody i ++ rest) = .ud := by
  obtain ⟨build, -, hdec⟩ := decodeFormat_encodeBody hw hf q (some r) rest
  rw [List.append_assoc, List.cons_append, decode_order_cons hp (prefixKind_rexByte r.w r.r r.x r.b),
    decodeAfterPrefixes_rexByte, hdec]
  exact finishDecode_ud (takeTail_encode _ _ _ (Instr.rm_wf hw) rest) (by simp)

/-- Settles O7: LOCK and `F3h` are judged at the end of the format, and so is the REX byte it was handed. -/
theorem lockAndMandatoryPrefixesAreUd : Obligations.LockAndMandatoryPrefixesAreUd := by
  intro m i pre rest q hw hp
  refine ⟨fun hlock hleg => ?_, fun hf hf3 => ?_, fun hf r => ?_⟩
  · exact decode_order_encodeBody_ud hw hp hleg (by rw [hlock, Bool.true_or]) rest
  · exact decode_order_encodeBody_ud hw hp (fun _ => hf3) (by simp [hf3, hf]) rest
  · exact decode_order_rexByte_encodeBody_ud (Instr.wf_m64 hw) hp hf r rest

end Sys2Proof

namespace Sys2Proof.Machine

/-- Settles O37: with nothing armed and the bytes `#UD`, the fetch ends the step by raising it. -/
theorem stepRaisesUd : Obligations.StepRaisesUd := by
  intro s m hd hm hdec
  simp only [step, State.fetchDecode, hd, Bool.false_eq_true, if_false, hm, hdec]
  rfl

/-! ### The tests of the state -/

/-- An absent feature or a disabled state is `#UD`, whatever `CR0.TS` (R184 to R189, R199). -/
theorem State.formFault_eq_ud {s : State} {f : Form}
    (h : featurePresent f s.cfg.features = false ∨ s.osEnabled f = false) : s.formFault f = some .ud := by
  rcases h with h | h <;> simp [State.formFault, h]

/-- With the feature and the state enabled, `CR0.TS = 1` is `#NM` (R193). -/
theorem State.formFault_eq_nm {s : State} {f : Form} (hfeat : featurePresent f s.cfg.features = true)
    (hos : s.osEnabled f = true) (hts : s.cr0TS = true) : s.formFault f = some .nm := by
  simp [State.formFault, hfeat, hos, hts]

/-- The tests read the constants, the enable state and `CR0.TS` alone. -/
theorem State.formFault_congr {s s' : State} {f : Form} (hcfg : s'.cfg = s.cfg) (hos : s'.osEnabled f = s.osEnabled f)
    (hts : s'.cr0TS = s.cr0TS) : s'.formFault f = s.formFault f := by
  simp only [State.formFault, hcfg, hos, hts]

/-- The exception the tests of the state raise is the instruction's fault, before any operand is read (R199). -/
theorem exec_of_formFault {i : Instr} {s : State} {m : Mode} {x : Exception} (hm : s.mode = some m)
    (hx : s.formFault i.form = some x) : exec i s = .fault (.exception (x.record s)) :=
  (exec_fault i s _).mpr ⟨m, x, hm, .inl hx, rfl⟩

/-- The enable state of a VEX or EVEX encoding needs the AVX state (R187, R189). -/
theorem State.osEnabled_eq_false_of_osAvx {s : State} {f : Form} (hf : f ≠ .leg) (h : s.osAvx = false) :
    s.osEnabled f = false := by
  cases f with
  | leg => exact absurd rfl hf
  | vex128 | vex256 => exact h
  | evex128 | evex256 | evex512 => exact Bool.and_eq_false_iff.mpr (.inl h)

/-- The enable state of an EVEX encoding needs the AVX-512 state (R189). -/
theorem State.osEnabled_eq_false_of_xcr0Avx512 {s : State} {f : Form} (hf : f.isEvex = true)
    (h : s.xcr0Avx512 = false) : s.osEnabled f = false := by
  cases f with
  | leg | vex128 | vex256 => cases hf
  | evex128 | evex256 | evex512 => exact Bool.and_eq_false_iff.mpr (.inr h)

/-- The enable state of a VEX or EVEX encoding reads `CR4.OSXSAVE` and `XCR0` alone (R187, R189). -/
theorem State.osEnabled_congr {s s' : State} {f : Form} (hf : f ≠ .leg) (hx : s'.cr4OSXSAVE = s.cr4OSXSAVE)
    (hxcr0 : s'.xcr0 = s.xcr0) : s'.osEnabled f = s.osEnabled f := by
  cases f with
  | leg => exact absurd rfl hf
  | vex128 | vex256 => simp only [State.osEnabled, State.osAvx, State.xcr0Avx, hx, hxcr0]
  | evex128 | evex256 | evex512 =>
    simp only [State.osEnabled, State.osAvx512, State.xcr0Avx, State.xcr0Avx512, hx, hxcr0]

/-- Settles O39: an encoding's feature test is the conjunction of the flags R184 names. -/
theorem absentFeatureIsUd : Obligations.AbsentFeatureIsUd := by
  intro i s m hm h
  refine exec_of_formFault hm (State.formFault_eq_ud (.inl ?_))
  obtain ⟨hf, h⟩ | ⟨hf, h⟩ | ⟨hf, h⟩ | ⟨hf | hf, h⟩ | ⟨hf, h⟩ := h <;> rw [hf]
  case inr.inr.inr.inl.inl | inr.inr.inr.inl.inr => exact Bool.and_eq_false_iff.mpr h
  all_goals exact h

/-- Settles O40: each bit is a conjunct of the enable state of its encodings, and outside format LEG that state reads
neither `CR0.EM` nor `CR4.OSFXSR`. -/
theorem disabledStateIsUd : Obligations.DisabledStateIsUd := by
  intro i s m hm
  refine ⟨fun h => exec_of_formFault hm (State.formFault_eq_ud (.inr ?_)), fun hf c0 c4 h0 h4 => ?_⟩
  · obtain ⟨hf, h⟩ | ⟨hf, h⟩ | ⟨hf, h⟩ := h
    · rw [hf]
      exact Bool.and_eq_false_iff.mpr (h.imp (congrArg (!·)) id)
    · exact State.osEnabled_eq_false_of_osAvx hf (Bool.and_eq_false_iff.mpr (h.imp id beq_eq_false_iff_ne.mpr))
    · exact State.osEnabled_eq_false_of_xcr0Avx512 hf (beq_eq_false_iff_ne.mpr h)
  · exact State.formFault_congr rfl (State.osEnabled_congr hf (h4 18 (by decide)) rfl) (h0 3 (by decide))

/-- Settles O41: once the tests that raise `#UD` pass, `CR0.TS` raises `#NM`. -/
theorem taskSwitchedIsNm : Obligations.TaskSwitchedIsNm := by
  intro i s m hm hfeat hos hts
  exact exec_of_formFault hm (State.formFault_eq_nm hfeat hos hts)

/-! ### What an instruction can raise -/

/-- The faults of an instruction in the order of R199: `#UD` of the state, `#NM` when there is none, and the memory faults
when it is ready and its source is memory. -/
theorem exec_fault_cases {i : Instr} {s : State} {φ : Fault} (h : exec i s = .fault φ) :
    ∃ x : Exception, φ = .exception (x.record s) ∧
      (x = .ud ∨
        x = .nm ∧ featurePresent i.form s.cfg.features = true ∧ s.osEnabled i.form = true ∨
        (x = .gp ∨ x = .ss ∨ ∃ c a, x = .pf c a) ∧ s.ready i.form = true ∧ ∃ fld, i.rm = .mem fld) := by
  obtain ⟨m, x, -, hx | ⟨hf, hv⟩, rfl⟩ := (exec_fault i s φ).mp h
  · refine ⟨x, rfl, ?_⟩
    obtain ⟨hx, -⟩ | ⟨hx, hud, -⟩ := State.formFault_cases s i.form x hx
    · exact .inl hx
    · exact .inr (.inl ⟨hx, Bool.and_eq_true_iff.mp hud⟩)
  · obtain ⟨fld, hrm, hx⟩ := srcVal_raised hv
    exact ⟨x, rfl, .inr (.inr ⟨hx, (State.formFault_eq_none s i.form).mp hf, fld, hrm⟩)⟩

/-- Settles O42: the vector tells which of the cases of R199 raised. -/
theorem faultPriority : Obligations.FaultPriority := by
  intro i s r h
  obtain ⟨x, hr, hx⟩ := exec_fault_cases h
  injection hr with hr
  subst hr
  obtain rfl | ⟨rfl, hud⟩ | ⟨hmem, hready⟩ := hx
  · exact ⟨fun h7 => absurd h7 (by decide : (6 : Nat) ≠ 7), fun h6 => absurd rfl h6⟩
  · exact ⟨fun _ => hud, fun _ h7 => absurd rfl h7⟩
  · refine ⟨fun h7 => ?_, fun _ _ => hready⟩
    obtain rfl | rfl | ⟨c, a, rfl⟩ := hmem <;> cases h7

/-- `W/R` and `I/D` of a page fault's code are clear, and `U/S` says whether the level is 3 (R198). -/
theorem pageFaultCode_bits (cpl : BitVec 2) (c : BitVec 32) :
    (pageFaultCode cpl c).getLsbD 1 = false ∧ (pageFaultCode cpl c).getLsbD 4 = false ∧
      ((pageFaultCode cpl c).getLsbD 2 = true ↔ cpl = 3#2) := by
  have hmask : (~~~0b10110#32).getLsbD 1 = false ∧ (~~~0b10110#32).getLsbD 4 = false ∧
      (~~~0b10110#32).getLsbD 2 = false := by decide
  simp only [pageFaultCode, BitVec.getLsbD_or, BitVec.getLsbD_and, hmask, Bool.and_false, Bool.false_or]
  split
  · next h => exact ⟨rfl, rfl, iff_of_true rfl h⟩
  · next h => exact ⟨rfl, rfl, iff_of_false (by decide) h⟩

/-- Settles O43: each exception's record, the page fault's code being the corrected one. -/
theorem exceptionRecords : Obligations.ExceptionRecords := by
  intro i s r h
  obtain ⟨x, hr, -⟩ := exec_fault_cases h
  injection hr with hr
  subst hr
  refine ⟨rfl, ?_⟩
  cases x with
  | ud => exact .inl ⟨.inl rfl, rfl, rfl, rfl⟩
  | nm => exact .inl ⟨.inr rfl, rfl, rfl, rfl⟩
  | ss => exact .inr (.inl ⟨.inl rfl, rfl, rfl, rfl⟩)
  | gp => exact .inr (.inl ⟨.inr rfl, rfl, rfl, rfl⟩)
  | pf c a => exact .inr (.inr ⟨rfl, rfl, _, rfl, pageFaultCode_bits s.cpl c⟩)

/-! ### What does not enter a fault or a result -/

/-- How an instruction writes its destination reads no field of the state but the opmask registers. -/
theorem writeOf_congr {s s' : State} (h : s'.k = s.k) (i : Instr) : writeOf i s' = writeOf i s := by
  cases i with
  | pshufhw | vpshufhw128Vex2 | vpshufhw128Vex3 | vpshufhw256Vex2 | vpshufhw256Vex3 => rfl
  | vpshufhw128Evex | vpshufhw256Evex | vpshufhw512Evex => simp only [writeOf, State.readMask, h]

/-- With a register source an instruction raises what the tests of the state raise, and nothing else. -/
theorem exec_fault_of_reg {i : Instr} {n : BitVec 3} (hrm : i.rm = .reg n) (s : State) (φ : Fault) :
    exec i s = .fault φ ↔
      ∃ m x, s.mode = some m ∧ s.formFault i.form = some x ∧ φ = .exception (x.record s) := by
  simp [exec_fault, hrm, srcVal]

/-- `#UD` and `#NM` record nothing of the level (R198). -/
theorem record_of_formFault_with_cpl {s : State} {f : Form} {x : Exception} (hx : s.formFault f = some x)
    (c : BitVec 2) : x.record { s with cpl := c } = x.record s := by
  obtain ⟨rfl, -⟩ | ⟨rfl, -⟩ := State.formFault_cases s f x hx <;> rfl

/-- Settles O34: a register source is read, and the tests of the state are made, without the level. -/
theorem notPrivileged : Obligations.NotPrivileged := by
  intro i n s t c hrm
  refine ⟨fun h => ?_, fun φ h => ?_⟩
  · obtain ⟨m, v, hm, hf, hv, rfl⟩ := (exec_next i s t).mp h
    rw [hrm] at hv
    refine (exec_next i _ _).mpr ⟨m, v, hm, hf, by rw [hrm]; exact hv, ?_⟩
    rw [writeOf_congr rfl]
    cases m <;> rfl
  · obtain ⟨m, x, hm, hx, rfl⟩ := (exec_fault_of_reg hrm s φ).mp h
    exact (exec_fault_of_reg hrm _ _).mpr ⟨m, x, hm, hx, by rw [record_of_formFault_with_cpl hx c]⟩

/-- `MODE` reads `PE`, `VM`, `LMA` and the code segment alone (R39). -/
theorem State.mode_congr {s s' : State} (hpe : s'.cr0PE = s.cr0PE) (hvm : s'.flagVM = s.flagVM)
    (hlma : s'.eferLMA = s.eferLMA) (hcs : s'.cs = s.cs) : s'.mode = s.mode := by
  simp only [State.mode, hpe, hvm, hlma, hcs]

section AlignmentCheckBits
variable {s : State} {c f : BitVec 64} (hc : ∀ j, j ≠ 18 → c.getLsbD j = s.cr0.getLsbD j)
include hc

/-- `CR0.AM` and `EFLAGS.AC` do not enter `MODE` (R39). -/
theorem State.mode_with_AM_AC (hf : ∀ j, j ≠ 18 → f.getLsbD j = s.rflags.getLsbD j) :
    ({ s with cr0 := c, rflags := f } : State).mode = s.mode :=
  State.mode_congr (hc 0 (by decide)) (hf 17 (by decide)) rfl rfl

/-- `CR0.AM` and the flags do not enter the tests of the state. -/
theorem State.formFault_with_AM_AC (g : Form) :
    ({ s with cr0 := c, rflags := f } : State).formFault g = s.formFault g := by
  have hem : ({ s with cr0 := c, rflags := f } : State).cr0EM = s.cr0EM := hc 2 (by decide)
  refine State.formFault_congr rfl ?_ (hc 3 (by decide))
  cases g with
  | leg => exact congrArg (!· && s.cr4OSFXSR) hem
  | vex128 | vex256 | evex128 | evex256 | evex512 => rfl

end AlignmentCheckBits

/-- `CR0` and the flags do not enter the source value, nor the checks on it (R197). -/
theorem srcVal_with_cr0_rflags (g : Form) (m : Mode) (p : Prefixes) (e : Ext) (rm : RmField) (len : Nat) (s : State)
    (c f : BitVec 64) : srcVal g m p e rm len { s with cr0 := c, rflags := f } = srcVal g m p e rm len s := by
  cases rm <;> rfl

/-- No exception of this model has the vector of `#AC` (R180, R197). -/
theorem Exception.vector_ne_seventeen (x : Exception) : x.vector ≠ 17 := by
  cases x <;> simp [Exception.vector]

/-- Settles O44: the five exceptions have other vectors, and an outcome is decided by the mode, the tests of the state and the
source, into none of which `CR0.AM` or `EFLAGS.AC` enters. -/
theorem noAlignmentCheck : Obligations.NoAlignmentCheck := by
  intro i s t
  refine ⟨fun r h => ?_, fun c f hc hf => ⟨fun h => ?_, fun φ h => ?_, fun ρ h => ?_⟩⟩
  · obtain ⟨x, hr, -⟩ := exec_fault_cases h
    injection hr with hr
    subst hr
    exact x.vector_ne_seventeen
  · obtain ⟨m, v, hm, hform, hv, rfl⟩ := (exec_next i s t).mp h
    refine (exec_next i _ _).mpr ⟨m, v, (State.mode_with_AM_AC hc hf).trans hm,
      (State.formFault_with_AM_AC hc _).trans hform, (srcVal_with_cr0_rflags ..).trans hv, ?_⟩
    rw [writeOf_congr rfl]
    cases m <;> rfl
  · rw [exec_fault] at h ⊢
    simp only [State.mode_with_AM_AC hc hf, State.formFault_with_AM_AC hc, srcVal_with_cr0_rflags]
    exact h
  · rw [exec_refused] at h ⊢
    simp only [State.mode_with_AM_AC hc hf, State.formFault_with_AM_AC hc, srcVal_with_cr0_rflags]
    exact h

end Sys2Proof.Machine
end

section
/-! Proofs of family `70_reset_and_hazards.md`: in the control state reset leaves, no step goes on. -/

namespace Sys2Proof.Machine

/-- Without protection there is neither `M64` nor `M32` (R39, R221). -/
theorem State.mode_eq_none_of_not_PE {s : State} (hpe : s.cr0PE = false) : s.mode = none := by
  simp [State.mode, hpe]

/-- Settles O58: reset leaves `CR0.PE` clear, so the state has no mode, and a step that goes on needs one. `CR0` alone
decides; the premise on `EFER` is not used. -/
theorem nothingRunsFromReset : Obligations.NothingRunsFromReset := by
  intro s t hcr0 _ h
  have hpe : s.cr0PE = false := by rw [State.cr0PE, hcr0]; rfl
  obtain ⟨m, _, _, -, hm, -⟩ := step_next h
  rw [State.mode_eq_none_of_not_PE hpe] at hm
  cases hm

end Sys2Proof.Machine
end
